-- ==== Sys2Proof/Word.lean ====
section
/-! DEFINITION. The word types of SNTP-CODEC: the octet of the packet buffer and of both ports, and the operand widths. -/

namespace Sys2Proof

/-- One octet, 8 bits, bit 7 the most significant (00_scope.md R4, R5). -/
abbrev Octet := BitVec 8

/-- A millisecond operand (`now`, `ms`, `t1` .. `t4`): 64 bits unsigned, milliseconds since 1900-01-01T00:00:00
(00_scope.md R4; 43_timestamp.md R90). -/
abbrev Millis := BitVec 64

/-- A datagram's byte count, the width of RXLEN and of RXLOAD's operand `n`: 16 bits unsigned (00_scope.md R4). -/
abbrev Count := BitVec 16

end Sys2Proof
end

