-- ==== Sys2Proof/Config.lean ====
section
/-! DEFINITION. What is fixed for this hardware, and the two parameters that 00_scope.md R4 leaves OPEN. -/

namespace Sys2Proof.Config

/-- PKT_LEN, the size of the packet buffer in octets (00_scope.md R4; 10_state.md R10). -/
def pktLen : Nat := 48

/-- POLL_HALF_ROUND, OPEN: the unsigned-seconds rendering of the poll exponent -1, one of 0 or 1
(41_header_decode.md R71; 93_implementation_defined.md U3). A free value: nothing can compute it, and a claim about it
holds for both. Host-side only, the block never reads it. DESIGN CHOICE, safe: log 8. -/
opaque pollHalfRound : Fin 2

/-- UTCOFF_MS, OPEN: the host's local time minus UTC in milliseconds, signed (46_transport_port.md R125; 92 D21).
A free value. Host-side only, the block never reads it. DESIGN CHOICE, safe: log 9. -/
opaque utcOffMs : Int

end Sys2Proof.Config
end

