-- ==== Sys2Proof/Syntax.lean ====
section
/-! DEFINITION. The commands of the block (30_encoding.md R43), their opcodes and formats as names, the command faults
(60_exceptions.md R130) and the pseudo-commands (R49). -/

namespace Sys2Proof

/-- The eighteen commands with their operands (30_encoding.md R41, R43). Operands are what the decoder assembles (R42):
unsigned bit vectors, and the 48 octets of a datagram in wire order. -/
inductive Instr where
  /-- INIT: build the request; operand the current local time (40_request_init.md R60). -/
  | init (now : Millis)
  /-- LI: Leap Indicator (41_header_decode.md R65). -/
  | li
  /-- VN: Version Number (R66). -/
  | vn
  /-- MODE: Mode (R67). -/
  | mode
  /-- STRAT: stratum class (R68). -/
  | strat
  /-- POLL: poll interval exponent (R69). -/
  | poll
  /-- PREC: precision exponent (R70). -/
  | prec
  /-- RDEL: Root Delay (42_root_refid.md R80). -/
  | rdel
  /-- RDISP: Root Dispersion (R81). -/
  | rdisp
  /-- REFID: Reference Identifier (R83). -/
  | refid
  /-- TSDEC: timestamp at an offset to milliseconds (43_timestamp.md R91). -/
  | tsdec (off : Octet)
  /-- MS2CAL: milliseconds to a calendar time (R92). -/
  | ms2cal (ms : Millis)
  /-- TSENC: milliseconds to the timestamp at an offset (R96). -/
  | tsenc (off : Octet) (ms : Millis)
  /-- VALID: is the buffer an acceptable reply (44_validate.md R105). -/
  | valid
  /-- DELAY: round-trip delay (45_clock_model.md R111). -/
  | delay (t1 t2 t3 t4 : Millis)
  /-- OFFS: local clock offset (R112). -/
  | offs (t1 t2 t3 t4 : Millis)
  /-- RXLOAD: deliver a datagram of byte count `n` (46_transport_port.md R120). -/
  | rxload (n : Count) (data : List Octet)
  /-- TXREAD: the 48 octets of the buffer (R121). -/
  | txread
deriving DecidableEq, Repr

/-- The names of the opcodes (30_encoding.md R43), apart from their numbers. -/
inductive Opcode where
  | init | li | vn | mode | strat | poll | prec | rdel | rdisp | refid | tsdec | ms2cal | tsenc | valid
  | delay | offs | rxload | txread
deriving DecidableEq, Repr

/-- The six command formats (30_encoding.md R41). -/
inductive Format where
  /-- N: no operand. -/
  | n
  /-- O: one offset octet. -/
  | o
  /-- M: a millisecond count. -/
  | m
  /-- OM: an offset octet and a millisecond count. -/
  | om
  /-- T: four millisecond counts. -/
  | t
  /-- X: a byte count and 48 octets. -/
  | x
deriving DecidableEq, Repr

/-- The faults a command can end in (60_exceptions.md R130). The machine goes on after each (R131): they are statuses of
a response, not stops of the model. -/
inductive CommandFault where
  /-- The first octet is no opcode of R43. -/
  | errOpcode
  /-- The length is 0 or not the one the opcode requires. -/
  | errLength
  /-- TSDEC, TSENC: the offset operand exceeds 40. -/
  | errBounds
  /-- INIT, TSENC: the seconds of the millisecond operand do not fit 32 bits. -/
  | errRange
deriving DecidableEq, Repr

/-- The pseudo-command REFTS: the Reference Timestamp (30_encoding.md R49). -/
def Instr.refts : Instr := .tsdec 16
/-- The pseudo-command ORIG: the Originate Timestamp (R49). -/
def Instr.orig : Instr := .tsdec 24
/-- The pseudo-command RECV: the Receive Timestamp (R49). -/
def Instr.recv : Instr := .tsdec 32
/-- The pseudo-command XMIT: the Transmit Timestamp (R49). -/
def Instr.xmit : Instr := .tsdec 40
/-- The pseudo-command SETXMIT: set the Transmit Timestamp of a request (R49). -/
def Instr.setxmit (ms : Millis) : Instr := .tsenc 40 ms

end Sys2Proof
end

