-- ==== Sys2Proof/WellFormed.lean ====
section
/-! DEFINITION. Which commands have an encoding: every bit-vector operand does (30_encoding.md R46 "all bit patterns are
accepted"), and RXLOAD carries exactly 48 data octets (R41 format X). -/

namespace Sys2Proof

/-- The command is one the encoding can carry. The only operand whose type says too little is RXLOAD's `data`. -/
def Instr.wellFormed : Instr → Bool
  | .rxload _ data => data.length == Config.pktLen
  | .init _ | .li | .vn | .mode | .strat | .poll | .prec | .rdel | .rdisp | .refid | .tsdec _ | .ms2cal _ | .tsenc _ _
  | .valid | .delay _ _ _ _ | .offs _ _ _ _ | .txread => true

end Sys2Proof
end

