-- ==== Sys2Proof/Decode.lean ====
section
/-! DEFINITION. The command decoder, total on any octet string (30_encoding.md R40 to R43, R46, R47), then the encoder
written from the same tables, then the host's table-word reading. -/

namespace Sys2Proof

/-- The unsigned big-endian value of an octet string: the sum of octet i times 256^(n-1-i) (00_scope.md R7; R42). -/
def beValue : List Octet → Nat
  | [] => 0
  | b :: bs => b.toNat * 256 ^ bs.length + beValue bs

/-- The `n` octets of `v`, big-endian: octet i is (v div 256^(n-1-i)) mod 256 (00_scope.md R7). -/
def beOctets : Nat → Nat → List Octet
  | 0, _ => []
  | n + 1, v => BitVec.ofNat 8 (v / 256 ^ n) :: beOctets n v

/-- The octets `c[at] .. c[at+len-1]` of a command. -/
def octetsAt (c : List Octet) (start len : Nat) : List Octet := (c.drop start).take len

/-- The length in octets of a command of each format (30_encoding.md R41). -/
def Format.length : Format → Nat
  | .n => 1
  | .o => 2
  | .m => 9
  | .om => 10
  | .t => 33
  | .x => 51

/-- The opcode numbers (30_encoding.md R43). -/
def Opcode.number : Opcode → Octet
  | .init => 0x01
  | .li => 0x02
  | .vn => 0x03
  | .mode => 0x04
  | .strat => 0x05
  | .poll => 0x06
  | .prec => 0x07
  | .rdel => 0x08
  | .rdisp => 0x09
  | .refid => 0x0A
  | .tsdec => 0x0B
  | .ms2cal => 0x0C
  | .tsenc => 0x0D
  | .valid => 0x0E
  | .delay => 0x10
  | .offs => 0x11
  | .rxload => 0x20
  | .txread => 0x21

/-- The format of each opcode (30_encoding.md R41, R43). -/
def Opcode.format : Opcode → Format
  | .li | .vn | .mode | .strat | .poll | .prec | .rdel | .rdisp | .refid | .valid | .txread => .n
  | .tsdec => .o
  | .init | .ms2cal => .m
  | .tsenc => .om
  | .delay | .offs => .t
  | .rxload => .x

/-- All opcodes, in the order of the opcode map (30_encoding.md R43). -/
def Opcode.all : List Opcode :=
  [.init, .li, .vn, .mode, .strat, .poll, .prec, .rdel, .rdisp, .refid, .tsdec, .ms2cal, .tsenc, .valid,
   .delay, .offs, .rxload, .txread]

/-- The opcode an octet is, if it is one (30_encoding.md R46). -/
def Opcode.ofOctet (c : Octet) : Option Opcode := Opcode.all.find? fun k => k.number == c

/-- The millisecond operand whose first octet is `c[at]` (30_encoding.md R42). -/
def millisAt (c : List Octet) (start : Nat) : Millis := BitVec.ofNat 64 (beValue (octetsAt c start 8))

/-- The offset operand `c[1]` (30_encoding.md R41, R42). -/
def offsetAt1 (c : List Octet) : Octet := BitVec.ofNat 8 (beValue (octetsAt c 1 1))

/-- The operands of a command of the right length, at the octet positions of its format (30_encoding.md R41, R42). -/
def Opcode.assemble (k : Opcode) (c : List Octet) : Instr :=
  match k with
  | .init => .init (millisAt c 1)
  | .li => .li
  | .vn => .vn
  | .mode => .mode
  | .strat => .strat
  | .poll => .poll
  | .prec => .prec
  | .rdel => .rdel
  | .rdisp => .rdisp
  | .refid => .refid
  | .tsdec => .tsdec (offsetAt1 c)
  | .ms2cal => .ms2cal (millisAt c 1)
  | .tsenc => .tsenc (offsetAt1 c) (millisAt c 2)
  | .valid => .valid
  | .delay => .delay (millisAt c 1) (millisAt c 9) (millisAt c 17) (millisAt c 25)
  | .offs => .offs (millisAt c 1) (millisAt c 9) (millisAt c 17) (millisAt c 25)
  | .rxload => .rxload (BitVec.ofNat 16 (beValue (octetsAt c 1 2))) (octetsAt c 3 48)
  | .txread => .txread

/-- The decoder: zero length, then unknown opcode, then wrong length, then the operands (30_encoding.md R47;
60_exceptions.md R132 (1) to (3)). -/
def decode (c : List Octet) : Except CommandFault Instr :=
  match c with
  | [] => .error .errLength
  | op :: _ =>
    match Opcode.ofOctet op with
    | none => .error .errOpcode
    | some k => if c.length = k.format.length then .ok (k.assemble c) else .error .errLength

/-- The opcode of a command. -/
def Instr.opcode : Instr → Opcode
  | .init _ => .init
  | .li => .li
  | .vn => .vn
  | .mode => .mode
  | .strat => .strat
  | .poll => .poll
  | .prec => .prec
  | .rdel => .rdel
  | .rdisp => .rdisp
  | .refid => .refid
  | .tsdec _ => .tsdec
  | .ms2cal _ => .ms2cal
  | .tsenc _ _ => .tsenc
  | .valid => .valid
  | .delay _ _ _ _ => .delay
  | .offs _ _ _ _ => .offs
  | .rxload _ _ => .rxload
  | .txread => .txread

/-- The operand octets of a command, in the order of its format (30_encoding.md R41, R42). -/
def Instr.operandOctets : Instr → List Octet
  | .init now => beOctets 8 now.toNat
  | .tsdec off => [off]
  | .ms2cal ms => beOctets 8 ms.toNat
  | .tsenc off ms => off :: beOctets 8 ms.toNat
  | .delay t1 t2 t3 t4 | .offs t1 t2 t3 t4 =>
    beOctets 8 t1.toNat ++ (beOctets 8 t2.toNat ++ (beOctets 8 t3.toNat ++ beOctets 8 t4.toNat))
  | .rxload n data => beOctets 2 n.toNat ++ data
  | .li | .vn | .mode | .strat | .poll | .prec | .rdel | .rdisp | .refid | .valid | .txread => []

/-- The octet string of a command: the opcode, then the operands (30_encoding.md R40, R41). -/
def encode (i : Instr) : List Octet := i.opcode.number :: i.operandOctets

/-- The octet string of a command given as a number, numbered as spec/opcode_table.json numbers it: the whole command is
one word, its first octet the most significant (30_encoding.md R41, "bit 0 being the last bit of the last octet"), and
operand octets the number does not reach are zero. DEDUCED, safe: log 6. -/
def tableOctets (nbits w : Nat) : List Octet :=
  match beOctets (nbits / 8) w with
  | [] => []
  | op :: rest =>
    match Opcode.ofOctet op with
    | none => op :: rest
    | some k => op :: rest ++ List.replicate (k.format.length - (rest.length + 1)) 0x00

/-- The command the decoder reads from a table word; none where it faults. -/
def decodeTableWord (nbits w : Nat) : Option Instr :=
  match decode (tableOctets nbits w) with
  | .ok i => some i
  | .error _ => none

end Sys2Proof
end

