-- ==== Sys2Proof/Machine/State.lean ====
section
/-! DEFINITION. The state of the block and of its two ports, the state after reset, and the reasons a step of the model
can stop. -/

namespace Sys2Proof.Machine

/-- One action of the host on the block (10_state.md R17; 46_transport_port.md R122). -/
inductive HostAction where
  /-- Present one command: its octets, whole, with their number (30_encoding.md R40). -/
  | command (octets : List Octet)
  /-- Reset the block (70_reset_and_hazards.md R150). -/
  | reset
deriving DecidableEq, Repr

/-- The whole state: the two items of 10_state.md, and the two ports as plain data. -/
structure State where
  /-- `PKT`, the 48-octet packet buffer (10_state.md R10): the octets that are not zero, as (offset, octet) cells in
  rising order of offset. -/
  pkt : List Host.Cell
  /-- `RXLEN`, the received-length register (10_state.md R11). -/
  rxlen : Count
  /-- The command port: the host's actions not yet taken, oldest first. The model's own field. DESIGN CHOICE, safe:
  log 1. -/
  port : List HostAction
  /-- The response port: the octets of the response delivered last (30_encoding.md R44), none before the first. No
  command reads it. The model's own field. DESIGN CHOICE, safe: log 3. -/
  resp : Option (List Octet)
deriving DecidableEq, Repr

/-- The block after reset and after power-on: every octet of PKT 0x00, RXLEN 0 (10_state.md R18;
70_reset_and_hazards.md R150). The ports are empty. DESIGN CHOICE: logs 2, 3. -/
def State.reset : State where
  pkt := []
  rxlen := 0
  port := []
  resp := none

/-- Why the model stops. The faults of 60_exceptions.md R130 are not here: the machine goes on after them. -/
inductive Fault where
  /-- Raised by the memory operations of Machine/Ops.lean for an access of `len` octets at `offset` that is not inside
  PKT (00_scope.md R7 "defined only inside the buffer"). No command reaches it. Safe: log 4. -/
  | outsideBuffer (offset len : Nat)
deriving DecidableEq, Repr

/-- Why the model gives an instruction no meaning. -/
inductive Refusal where
  /-- Raised by an arm of exec for an instruction not modelled yet: no arm is left. Safe. -/
  | notModelled (mnemonic : String)
deriving DecidableEq, Repr

/-- The outcome of one command or step of this machine. -/
abbrev Result := Host.Outcome State Fault Refusal

end Sys2Proof.Machine
end

