-- ==== Sys2Proof/Machine/Ops.lean ====
section
/-! DEFINITION. The shared operations: bit fields and two's complement (00_scope.md R5, R6), the packet buffer (R7),
the ways a command ends (R8; 60_exceptions.md R130, R131), and what a step does around a command. -/

namespace Sys2Proof.Machine

/-! Bit fields and two's complement -/

/-- `v[hi:lo]`, the unsigned value of bits hi down to lo (00_scope.md R5). -/
def bits (v hi lo : Nat) : Nat := v / 2 ^ lo % 2 ^ (hi - lo + 1)

/-- `s8(v)`, the two's-complement reading of an octet's value (00_scope.md R6). -/
def s8 (v : Nat) : Int := if v < 128 then (v : Int) else (v : Int) - 256

/-- `tc_N(z)`, the N-bit two's-complement pattern of an integer, as its unsigned value (00_scope.md R6). -/
def tc (n : Nat) (z : Int) : Nat := (z % 2 ^ n).toNat

/-! The packet buffer as data -/

/-- What an offset that the list does not name reads as: the reset value (10_state.md R18). DESIGN CHOICE of
the form, safe: log 5. -/
def Memory.unlisted : Octet := 0x00

/-- The octet at an offset. -/
def Memory.get : List Host.Cell → Nat → Octet
  | [], _ => Memory.unlisted
  | (b, v) :: m, a => if b = a then v else Memory.get m a

/-- The cells at other offsets. -/
def Memory.erase (m : List Host.Cell) (a : Nat) : List Host.Cell := m.filter fun c => c.1 != a

/-- A new cell, put before the first cell of a higher offset. -/
def Memory.insert : List Host.Cell → Nat → Octet → List Host.Cell
  | [], a, v => [(a, v)]
  | (b, w) :: m, a, v => if a < b then (a, v) :: (b, w) :: m else (b, w) :: Memory.insert m a v

/-- Write one octet, keeping the canonical form: the value an unlisted offset reads as is not listed. -/
def Memory.set (m : List Host.Cell) (a : Nat) (v : Octet) : List Host.Cell :=
  if v = Memory.unlisted then Memory.erase m a else Memory.insert (Memory.erase m a) a v

/-- Write octets at rising offsets from `a`. -/
def Memory.store : List Host.Cell → Nat → List Octet → List Host.Cell
  | m, _, [] => m
  | m, a, v :: vs => Memory.store (Memory.set m a v) (a + 1) vs

/-- The `n` octets from offset `a` up. -/
def Memory.octets (m : List Host.Cell) : Nat → Nat → List Octet
  | _, 0 => []
  | a, n + 1 => Memory.get m a :: Memory.octets m (a + 1) n

/-- Canonical from offset `lo` on: offsets rising and inside the buffer, no octet that an unlisted offset reads as. -/
def Memory.wfFrom (lo : Nat) : List Host.Cell → Bool
  | [] => true
  | (a, v) :: m => decide (lo ≤ a) && decide (a < Config.pktLen) && (v != Memory.unlisted) && Memory.wfFrom (a + 1) m

/-- The canonical form of a packet buffer. -/
def Memory.wf (m : List Host.Cell) : Bool := Memory.wfFrom 0 m

/-- `PKT[a]`. -/
def State.octet (s : State) (a : Nat) : Octet := Memory.get s.pkt a

/-! Updates of one field -/

/-- The state with another packet buffer. -/
def State.setPkt (s : State) (m : List Host.Cell) : State := { s with pkt := m }
/-- The state with another RXLEN. -/
def State.setRxlen (s : State) (n : Count) : State := { s with rxlen := n }
/-- The state with other pending host actions. -/
def State.setPort (s : State) (p : List HostAction) : State := { s with port := p }
/-- The state with another response delivered. -/
def State.setResp (s : State) (r : Option (List Octet)) : State := { s with resp := r }

/-! How a command ends -/

/-- The status octet of a response without fault (60_exceptions.md R130). -/
def okStatus : Octet := 0x00

/-- The status octet of each command fault (60_exceptions.md R130). -/
def faultStatus : CommandFault → Octet
  | .errOpcode => 0x01
  | .errLength => 0x02
  | .errBounds => 0x03
  | .errRange => 0x04

/-- `resp <- (OK, result)`: status 0x00 and the result octets on the response port (00_scope.md R8; 30_encoding.md
R44). -/
def answer (s : State) (result : List Octet) : Result := .next (s.setResp (some (okStatus :: result)))

/-- `raise Fault(code)`: the single status octet on the response port and nothing else, neither PKT nor RXLEN written
(00_scope.md R8; 60_exceptions.md R131). There is no saved state and no way back from a fault (R134, R135). -/
def raise (s : State) (f : CommandFault) : Result := .next (s.setResp (some [faultStatus f]))

/-! Access to the buffer. A continuation takes what was read, or the state after the write. -/

/-- Read `n` octets from offset `a`; outside the buffer the model stops (00_scope.md R7; log 4). -/
def readOctets (s : State) (a n : Nat) (k : List Octet → Result) : Result :=
  if a + n ≤ Config.pktLen then k (Memory.octets s.pkt a n) else .fault (.outsideBuffer a n)

/-- `MemRead(a, n)`, the unsigned big-endian value of `n` octets (00_scope.md R7). -/
def memRead (s : State) (a n : Nat) (k : Nat → Result) : Result := readOctets s a n fun bs => k (beValue bs)

/-- Write octets from offset `a`; outside the buffer the model stops (00_scope.md R7; log 4). -/
def writeOctets (s : State) (a : Nat) (bs : List Octet) (k : State → Result) : Result :=
  if a + bs.length ≤ Config.pktLen then k (s.setPkt (Memory.store s.pkt a bs)) else .fault (.outsideBuffer a bs.length)

/-- `MemWrite(a, n, v)`, the `n` octets of `v` big-endian (00_scope.md R7). -/
def memWrite (s : State) (a n v : Nat) (k : State → Result) : Result := writeOctets s a (beOctets n v) k

/-! What a step does around a command -/

/-- Take the oldest host action off the command port (20_memory.md R30). -/
def acceptAction (s : State) : State := s.setPort s.port.tail

/-- The reset action: the block as after reset, no response; what the host presented after it is still pending
(70_reset_and_hazards.md R150). DESIGN CHOICE, safe: log 2. -/
def resetBlock (s : State) : State := State.reset.setPort s.port.tail

/-- Nothing presented: the block is idle and keeps PKT and RXLEN (60_exceptions.md R138). DESIGN CHOICE, safe:
log 7. -/
def idle (s : State) : Result := .next s

end Sys2Proof.Machine
end

