-- ==== Sys2Proof/Machine/Clock.lean ====
section
/-! DEFINITION. The clock model: DELAY and OFFS, pure functions of their operands (45_clock_model.md). -/

namespace Sys2Proof.Machine

/-- A millisecond operand as the integer it stands for (45_clock_model.md R110). -/
def millisInt (t : Millis) : Int := (t.toNat : Int)

/-- Round-trip delay in milliseconds, on integers: no wrap, no clamp (45_clock_model.md R111). -/
def roundTripDelay (t1 t2 t3 t4 : Int) : Int := (t4 - t1) - (t3 - t2)

/-- Clock offset in half-milliseconds, on integers: the halving is the reader's (45_clock_model.md R112). -/
def offsetHalves (t1 t2 t3 t4 : Int) : Int := (t2 - t1) + (t3 - t4)

/-- A clock-model result on the response port: `tc_72`, nine octets (30_encoding.md R44). -/
def clockOctets (z : Int) : List Octet := beOctets 9 (tc 72 z)

/-- DELAY (45_clock_model.md R111). -/
def execDelay (t1 t2 t3 t4 : Millis) (s : State) : Result :=
  answer s (clockOctets (roundTripDelay (millisInt t1) (millisInt t2) (millisInt t3) (millisInt t4)))

/-- OFFS (45_clock_model.md R112). -/
def execOffs (t1 t2 t3 t4 : Millis) (s : State) : Result :=
  answer s (clockOctets (offsetHalves (millisInt t1) (millisInt t2) (millisInt t3) (millisInt t4)))

end Sys2Proof.Machine
end

