-- ==== Sys2Proof/Machine/Operands.lean ====
section
/-! DEFINITION. The two operand forms with a legality check, each made before any write: the buffer offset and the
millisecond count to be encoded. Every other operand is legal at every value (30_encoding.md R46). -/

namespace Sys2Proof.Machine

/-- The highest legal offset of an 8-octet timestamp in the buffer (20_memory.md R27). -/
def maxOffset : Nat := 40

/-- 2^32 * 1000: the first millisecond count whose seconds do not fit 32 bits (43_timestamp.md R96). -/
def millisLimit : Nat := 4294967296000

/-- The offset operand of TSDEC and TSENC: unsigned, ERR_BOUNDS above 40 (20_memory.md R27, R34). -/
def withOffset (s : State) (off : Octet) (k : Nat → Result) : Result :=
  if maxOffset < off.toNat then raise s .errBounds else k off.toNat

/-- The millisecond operand of INIT and TSENC: ERR_RANGE from 2^32 * 1000 on (43_timestamp.md R96). -/
def withEncodable (s : State) (ms : Millis) (k : Nat → Result) : Result :=
  if millisLimit ≤ ms.toNat then raise s .errRange else k ms.toNat

end Sys2Proof.Machine
end

