-- ==== Sys2Proof/Machine/Timestamp.lean ====
section
/-! DEFINITION. The NTP timestamp: decode, calendar conversion and encode, TSDEC, MS2CAL, TSENC (43_timestamp.md). -/

namespace Sys2Proof.Machine

/-- `ts_to_ms` on the integer and fraction parts, truncating (43_timestamp.md R91). -/
def tsToMs (seconds fraction : Nat) : Nat := seconds * 1000 + fraction * 1000 / 2 ^ 32

/-- The integer part of `ms_to_ts` (43_timestamp.md R96). -/
def msToSeconds (ms : Nat) : Nat := ms / 1000

/-- The fraction part of `ms_to_ts`, truncating (43_timestamp.md R96). -/
def msToFraction (ms : Nat) : Nat := ms % 1000 * 2 ^ 32 / 1000

/-- Read the timestamp at offset `a`: `ts_to_ms(a)` (43_timestamp.md R90, R91). -/
def readTimestamp (s : State) (a : Nat) (k : Nat → Result) : Result :=
  memRead s a 4 fun seconds => memRead s (a + 4) 4 fun fraction => k (tsToMs seconds fraction)

/-- Write the timestamp of `ms` at offset `a` (43_timestamp.md R96). -/
def writeTimestamp (s : State) (a ms : Nat) (k : State → Result) : Result :=
  memWrite s a 4 (msToSeconds ms) fun s1 => memWrite s1 (a + 4) 4 (msToFraction ms) k

/-- The broken-down fields of a calendar time (43_timestamp.md R92). -/
structure Civil where
  year : Nat
  month : Nat
  day : Nat
  hour : Nat
  minute : Nat
  second : Nat
  msec : Nat
deriving DecidableEq, Repr

/-- Year of the 400-year era, of a day of the era (43_timestamp.md R93). -/
def yearOfEra (doe : Nat) : Nat := (doe - doe / 1460 + doe / 36524 - doe / 146096) / 365

/-- Day of the year counted from 1 March (43_timestamp.md R93). -/
def dayOfYear (doe : Nat) : Nat := doe - (365 * yearOfEra doe + yearOfEra doe / 4 - yearOfEra doe / 100)

/-- `civil_from_ms` (43_timestamp.md R93, which the spec marks as general knowledge). UNVERIFIED,
unsafe: log 11. -/
def civilFromMs (ms : Nat) : Civil :=
  let days := ms / 86400000
  let rem := ms % 86400000
  let z := days + 693901
  let era := z / 146097
  let doe := z % 146097
  let doy := dayOfYear doe
  let mp := (5 * doy + 2) / 153
  let month := if mp < 10 then mp + 3 else mp - 9
  { year := yearOfEra doe + era * 400 + (if month ≤ 2 then 1 else 0)
    month := month
    day := doy - (153 * mp + 2) / 5 + 1
    hour := rem / 3600000
    minute := rem / 60000 % 60
    second := rem / 1000 % 60
    msec := rem % 1000 }

/-- The calendar fields on the response port: year 32 bits, month to second 8 bits each, msec 16 bits
(30_encoding.md R44; 43_timestamp.md R93). -/
def civilOctets (c : Civil) : List Octet :=
  beOctets 4 c.year ++ beOctets 1 c.month ++ beOctets 1 c.day ++ beOctets 1 c.hour ++ beOctets 1 c.minute
    ++ beOctets 1 c.second ++ beOctets 2 c.msec

/-- TSDEC (43_timestamp.md R91). -/
def execTsdec (off : Octet) (s : State) : Result :=
  withOffset s off fun a => readTimestamp s a fun ms => answer s (beOctets 8 ms)

/-- MS2CAL: the instant unchanged, then its calendar fields; every operand legal (43_timestamp.md R92). -/
def execMs2cal (ms : Millis) (s : State) : Result :=
  answer s (beOctets 8 ms.toNat ++ civilOctets (civilFromMs ms.toNat))

/-- TSENC: ERR_BOUNDS before ERR_RANGE, both before the write (43_timestamp.md R96; 60_exceptions.md R132). -/
def execTsenc (off : Octet) (ms : Millis) (s : State) : Result :=
  withOffset s off fun a => withEncodable s ms fun m => writeTimestamp s a m fun s1 => answer s1 []

end Sys2Proof.Machine
end

