-- ==== Sys2Proof/Machine/Request.lean ====
section
/-! DEFINITION. Request initialisation, INIT (40_request_init.md). -/

namespace Sys2Proof.Machine

/-- The header octet of a request, 0x1B: Leap Indicator 0, Version Number 3, Mode 3 (40_request_init.md R60;
90_conflicts.md C1). -/
def requestHeader : Octet := 0x1B

/-- The offset of the Transmit Timestamp (20_memory.md R21). -/
def transmitOffset : Nat := 40

/-- INIT: zero-fill, the header octet, the timestamp of `now` in the Transmit Timestamp field, RXLEN 0
(40_request_init.md R60; 90_conflicts.md C8). -/
def execInit (now : Millis) (s : State) : Result :=
  withEncodable s now fun ms =>
  writeOctets s 0 (List.replicate Config.pktLen 0x00) fun s1 =>
  writeOctets s1 0 [requestHeader] fun s2 =>
  writeTimestamp s2 transmitOffset ms fun s3 =>
  answer (s3.setRxlen 0) []

end Sys2Proof.Machine
end

