-- ==== Sys2Proof/Machine/Codes.lean ====
section
/-! DEFINITION. The enumerations the decoders answer with, and their codes on the response port (30_encoding.md R45). -/

namespace Sys2Proof.Machine

/-- The values of the Leap Indicator (41_header_decode.md R65). -/
inductive LeapIndicator where
  | noWarning | lastMinute61 | lastMinute59 | alarm
deriving DecidableEq, Repr

/-- The values of Mode (41_header_decode.md R67). -/
inductive PacketMode where
  | unknown | symmetricActive | symmetricPassive | client | server | broadcast
deriving DecidableEq, Repr

/-- The stratum classes (41_header_decode.md R68). -/
inductive StratumClass where
  | unspecified | primaryReference | secondaryReference | reserved
deriving DecidableEq, Repr

/-- The readings of the Reference Identifier (42_root_refid.md R82). -/
inductive RefIdKind where
  | ascii | ipv4 | tstamp | na
deriving DecidableEq, Repr

/-- Leap Indicator codes (30_encoding.md R45). -/
def leapCode : LeapIndicator → Nat
  | .noWarning => 0
  | .lastMinute61 => 1
  | .lastMinute59 => 2
  | .alarm => 3

/-- Mode codes (30_encoding.md R45). -/
def modeCode : PacketMode → Nat
  | .unknown => 0
  | .symmetricActive => 1
  | .symmetricPassive => 2
  | .client => 3
  | .server => 4
  | .broadcast => 5

/-- Stratum class codes (30_encoding.md R45). -/
def stratumCode : StratumClass → Nat
  | .unspecified => 0
  | .primaryReference => 1
  | .secondaryReference => 2
  | .reserved => 3

/-- Reference ID kind codes (30_encoding.md R45). -/
def refIdCode : RefIdKind → Nat
  | .ascii => 0
  | .ipv4 => 1
  | .tstamp => 2
  | .na => 3

/-- Boolean codes (30_encoding.md R45). -/
def boolCode (b : Bool) : Nat := if b then 1 else 0

end Sys2Proof.Machine
end

