-- ==== Sys2Proof/Machine/Header.lean ====
section
/-! DEFINITION. The header field decoders LI, VN, MODE, STRAT, POLL, PREC (41_header_decode.md). -/

namespace Sys2Proof.Machine

/-- The Leap Indicator field (20_memory.md R23): values 0, 1, 2 map directly, 3 is Alarm (R65). -/
def leapOf (octet0 : Nat) : LeapIndicator :=
  match bits octet0 7 6 with
  | 0 => .noWarning
  | 1 => .lastMinute61
  | 2 => .lastMinute59
  | _ => .alarm

/-- The Version Number field, 0..7 as it is (R66). -/
def versionOf (octet0 : Nat) : Nat := bits octet0 5 3

/-- The Mode field: 1..5 are named, 0, 6 and 7 are Unknown (R67). -/
def modeOf (octet0 : Nat) : PacketMode :=
  match bits octet0 2 0 with
  | 1 => .symmetricActive
  | 2 => .symmetricPassive
  | 3 => .client
  | 4 => .server
  | 5 => .broadcast
  | _ => .unknown

/-- The stratum class (R68). -/
def stratumOf (octet1 : Nat) : StratumClass :=
  if octet1 = 0 then .unspecified
  else if octet1 = 1 then .primaryReference
  else if octet1 ≤ 15 then .secondaryReference
  else .reserved

/-- LI (41_header_decode.md R65). -/
def execLi (s : State) : Result := memRead s 0 1 fun o => answer s (beOctets 1 (leapCode (leapOf o)))

/-- VN (41_header_decode.md R66). -/
def execVn (s : State) : Result := memRead s 0 1 fun o => answer s (beOctets 1 (versionOf o))

/-- MODE (41_header_decode.md R67). -/
def execMode (s : State) : Result := memRead s 0 1 fun o => answer s (beOctets 1 (modeCode (modeOf o)))

/-- STRAT (41_header_decode.md R68). -/
def execStrat (s : State) : Result := memRead s 1 1 fun o => answer s (beOctets 1 (stratumCode (stratumOf o)))

/-- POLL: the exponent as a two's-complement octet (41_header_decode.md R69). -/
def execPoll (s : State) : Result := memRead s 2 1 fun o => answer s (beOctets 1 (tc 8 (s8 o)))

/-- PREC: the exponent as a two's-complement octet (41_header_decode.md R70). -/
def execPrec (s : State) : Result := memRead s 3 1 fun o => answer s (beOctets 1 (tc 8 (s8 o)))

end Sys2Proof.Machine
end

