-- ==== Sys2Proof/Machine/Root.lean ====
section
/-! DEFINITION. Root delay, root dispersion and reference identifier: RDEL, RDISP, REFID (42_root_refid.md). -/

namespace Sys2Proof.Machine

/-- The numerator over 8192 of a 16.16 field in milliseconds, read unsigned (42_root_refid.md R80). -/
def rootNumerator (raw : Nat) : Nat := raw * 125

/-- RDEL (42_root_refid.md R80). -/
def execRdel (s : State) : Result := memRead s 4 4 fun raw => answer s (beOctets 5 (rootNumerator raw))

/-- RDISP (42_root_refid.md R81). -/
def execRdisp (s : State) : Result := memRead s 8 4 fun raw => answer s (beOctets 5 (rootNumerator raw))

/-- `refid_kind` (42_root_refid.md R82). -/
def refIdKind (sc : StratumClass) (vn : Nat) : RefIdKind :=
  match sc with
  | .unspecified => .ascii
  | .primaryReference => .ascii
  | .secondaryReference => if vn = 3 then .ipv4 else if vn = 4 then .tstamp else .na
  | .reserved => .na

/-- The payload of REFID: the four octets, the 8 octets 12..19 as a timestamp, or 0 (42_root_refid.md R83;
90_conflicts.md C4). -/
def refIdPayload (s : State) (kind : RefIdKind) (k : Nat → Result) : Result :=
  match kind with
  | .ascii => memRead s 12 4 k
  | .ipv4 => memRead s 12 4 k
  | .tstamp => readTimestamp s 12 k
  | .na => k 0

/-- REFID: kind from the stratum class and the version in the buffer, and the payload (42_root_refid.md R83). -/
def execRefid (s : State) : Result :=
  memRead s 0 1 fun o0 =>
  memRead s 1 1 fun o1 =>
  let kind := refIdKind (stratumOf o1) (versionOf o0)
  refIdPayload s kind fun p =>
  answer s (beOctets 1 (refIdCode kind) ++ beOctets 8 p)

end Sys2Proof.Machine
end

