-- ==== Sys2Proof/Machine/Transport.lean ====
section
/-! DEFINITION. The transport's access to the buffer: RXLOAD and TXREAD (46_transport_port.md). -/

namespace Sys2Proof.Machine

/-- RXLOAD: the first min(n, 48) octets of the datagram, the rest of PKT as it was; RXLEN takes all of `n`
(46_transport_port.md R120). A well-formed command has 48 data octets. DESIGN CHOICE, safe, for
any other: log 10. -/
def execRxload (n : Count) (data : List Octet) (s : State) : Result :=
  writeOctets s 0 (data.take (min n.toNat Config.pktLen)) fun s1 => answer (s1.setRxlen n) []

/-- TXREAD: the 48 octets, offset 0 first (46_transport_port.md R121). -/
def execTxread (s : State) : Result := readOctets s 0 Config.pktLen fun bs => answer s bs

end Sys2Proof.Machine
end

