-- ==== Sys2Proof/Machine/Validate.lean ====
section
/-! DEFINITION. Reply validation, VALID (44_validate.md). -/

namespace Sys2Proof.Machine

/-- The least byte count of an acceptable reply (44_validate.md R105; 00_scope.md R4). -/
def replyLength : Nat := 48

/-- Long enough and from a server; nothing else is examined (44_validate.md R105). -/
def isValidReply (rxlen octet0 : Nat) : Bool := decide (replyLength ≤ rxlen) && (modeOf octet0 == .server)

/-- VALID: an invalid reply is the result 0, not a fault (44_validate.md R105). -/
def execValid (s : State) : Result :=
  memRead s 0 1 fun o => answer s (beOctets 1 (boolCode (isValidReply s.rxlen.toNat o)))

end Sys2Proof.Machine
end

