-- ==== Sys2Proof/Machine/Dispatch.lean ====
section
/-! DEFINITION. The dispatch: one arm per command, each one call of its meaning. -/

namespace Sys2Proof.Machine

def exec (i : Instr) (s : State) : Host.Outcome State Fault Refusal :=
  match i with
  | .init now => Sys2Proof.Machine.execInit now s
  | .li => Sys2Proof.Machine.execLi s
  | .vn => Sys2Proof.Machine.execVn s
  | .mode => Sys2Proof.Machine.execMode s
  | .strat => Sys2Proof.Machine.execStrat s
  | .poll => Sys2Proof.Machine.execPoll s
  | .prec => Sys2Proof.Machine.execPrec s
  | .rdel => Sys2Proof.Machine.execRdel s
  | .rdisp => Sys2Proof.Machine.execRdisp s
  | .refid => Sys2Proof.Machine.execRefid s
  | .tsdec off => Sys2Proof.Machine.execTsdec off s
  | .ms2cal ms => Sys2Proof.Machine.execMs2cal ms s
  | .tsenc off ms => Sys2Proof.Machine.execTsenc off ms s
  | .valid => Sys2Proof.Machine.execValid s
  | .delay t1 t2 t3 t4 => Sys2Proof.Machine.execDelay t1 t2 t3 t4 s
  | .offs t1 t2 t3 t4 => Sys2Proof.Machine.execOffs t1 t2 t3 t4 s
  | .rxload n data => Sys2Proof.Machine.execRxload n data s
  | .txread => Sys2Proof.Machine.execTxread s

end Sys2Proof.Machine
end

