-- ==== Sys2Proof/Machine/Step.lean ====
section
/-! DEFINITION. One step: the block takes the oldest action on the command port and performs it
(20_memory.md R30; 30_encoding.md R40, R47; 70_reset_and_hazards.md R150). -/

namespace Sys2Proof.Machine

/-- One step. A command that decodes is executed, one that does not answers its fault, a reset resets, and with nothing
presented the block is idle. -/
def step (s : State) : Host.Outcome State Fault Refusal :=
  match s.port with
  | [] => idle s
  | .reset :: _ => .next (resetBlock s)
  | .command c :: _ =>
    match decode c with
    | .ok i => exec i (acceptAction s)
    | .error f => raise (acceptAction s) f

/-- The state with the command of a table word presented before everything else on the command port, so that the next
step takes it (logs 6, 7). -/
def State.withFetchWord (s : State) (nbits w : Nat) : State :=
  s.setPort (.command (tableOctets nbits w) :: s.port)

end Sys2Proof.Machine
end

