-- ==== Sys2Proof/Machine/AsmText.lean ====
section
/-! DEFINITION. The textual syntax of 30_encoding.md R48, with the pseudo-commands of R49: one line of text to a command.
It stands beside the machine, no step reads text. Text is a list of characters. DESIGN CHOICE, safe, where R48 leaves a
detail open: log 14. -/

namespace Sys2Proof.Machine

/-- The value of a hexadecimal digit. -/
def hexDigit (c : Char) : Option Nat :=
  if '0'.toNat ≤ c.toNat ∧ c.toNat ≤ '9'.toNat then some (c.toNat - '0'.toNat)
  else if 'A'.toNat ≤ c.toNat ∧ c.toNat ≤ 'F'.toNat then some (c.toNat - 'A'.toNat + 10)
  else if 'a'.toNat ≤ c.toNat ∧ c.toNat ≤ 'f'.toNat then some (c.toNat - 'a'.toNat + 10)
  else none

/-- Digits in a base, most significant first, after the value read so far; an underscore separates. -/
def digitsValue (base : Nat) : List Char → Nat → Option Nat
  | [], acc => some acc
  | c :: cs, acc =>
    if c = '_' then digitsValue base cs acc
    else match hexDigit c with
      | some d => if d < base then digitsValue base cs (acc * base + d) else none
      | none => none

/-- A number: decimal, or hexadecimal with 0x before it (30_encoding.md R48). -/
def numberOf : List Char → Option Nat
  | [] => none
  | '0' :: 'x' :: c :: cs => digitsValue 16 (c :: cs) 0
  | c :: cs => digitsValue 10 (c :: cs) 0

/-- A number that fits the width of its operand. -/
def operandOf (width : Nat) (cs : List Char) : Option (BitVec width) :=
  match numberOf cs with
  | some v => if v < 2 ^ width then some (BitVec.ofNat width v) else none
  | none => none

/-- The octets that a string of hexadecimal digits writes, first octet first (30_encoding.md R48). -/
def hexOctets : List Char → Option (List Octet)
  | [] => some []
  | [_] => none
  | a :: b :: cs =>
    match hexDigit a, hexDigit b, hexOctets cs with
    | some x, some y, some os => some (BitVec.ofNat 8 (x * 16 + y) :: os)
    | _, _, _ => none

/-- The characters of a line that say the command: up to a comment, up to an expected response, without blanks but for
the one after the mnemonic. -/
def commandPart (line : List Char) : List Char := line.takeWhile fun c => c != ';' && c != '='

/-- The text without its blanks. -/
def unblanked (cs : List Char) : List Char := cs.filter fun c => c != ' '

/-- The pieces of a text between commas. -/
def commaPieces : List Char → List (List Char)
  | [] => [[]]
  | c :: cs =>
    match commaPieces cs with
    | [] => [[c]]
    | p :: ps => if c = ',' then [] :: p :: ps else (c :: p) :: ps

/-- The operands of a line: none, or the pieces between commas. -/
def operandTexts (cs : List Char) : List (List Char) :=
  match unblanked cs with
  | [] => []
  | c :: cs => commaPieces (c :: cs)

/-- A command without operands, where there are none. -/
def withoutOperands (i : Instr) : List (List Char) → Option Instr
  | [] => some i
  | _ => none

/-- A command of one millisecond operand. -/
def withMillis (k : Millis → Instr) : List (List Char) → Option Instr
  | [t] => (operandOf 64 t).map k
  | _ => none

/-- A command of four millisecond operands. -/
def withFour (k : Millis → Millis → Millis → Millis → Instr) : List (List Char) → Option Instr
  | [a, b, c, d] =>
    match operandOf 64 a, operandOf 64 b, operandOf 64 c, operandOf 64 d with
    | some t1, some t2, some t3, some t4 => some (k t1 t2 t3 t4)
    | _, _, _, _ => none
  | _ => none

/-- The command of a mnemonic or pseudo-command and its operand texts (30_encoding.md R43, R48, R49). -/
def commandOf (mnemonic : List Char) (ops : List (List Char)) : Option Instr :=
  match mnemonic with
  | ['I', 'N', 'I', 'T'] => withMillis .init ops
  | ['L', 'I'] => withoutOperands .li ops
  | ['V', 'N'] => withoutOperands .vn ops
  | ['M', 'O', 'D', 'E'] => withoutOperands .mode ops
  | ['S', 'T', 'R', 'A', 'T'] => withoutOperands .strat ops
  | ['P', 'O', 'L', 'L'] => withoutOperands .poll ops
  | ['P', 'R', 'E', 'C'] => withoutOperands .prec ops
  | ['R', 'D', 'E', 'L'] => withoutOperands .rdel ops
  | ['R', 'D', 'I', 'S', 'P'] => withoutOperands .rdisp ops
  | ['R', 'E', 'F', 'I', 'D'] => withoutOperands .refid ops
  | ['T', 'S', 'D', 'E', 'C'] =>
    match ops with
    | [off] => (operandOf 8 off).map .tsdec
    | _ => none
  | ['M', 'S', '2', 'C', 'A', 'L'] => withMillis .ms2cal ops
  | ['T', 'S', 'E', 'N', 'C'] =>
    match ops with
    | [off, ms] =>
      match operandOf 8 off, operandOf 64 ms with
      | some a, some m => some (.tsenc a m)
      | _, _ => none
    | _ => none
  | ['V', 'A', 'L', 'I', 'D'] => withoutOperands .valid ops
  | ['D', 'E', 'L', 'A', 'Y'] => withFour .delay ops
  | ['O', 'F', 'F', 'S'] => withFour .offs ops
  | ['R', 'X', 'L', 'O', 'A', 'D'] =>
    match ops with
    | [n, data] =>
      match operandOf 16 n, hexOctets data with
      | some c, some os => if os.length = Config.pktLen then some (.rxload c os) else none
      | _, _ => none
    | _ => none
  | ['T', 'X', 'R', 'E', 'A', 'D'] => withoutOperands .txread ops
  | ['R', 'E', 'F', 'T', 'S'] => withoutOperands .refts ops
  | ['O', 'R', 'I', 'G'] => withoutOperands .orig ops
  | ['R', 'E', 'C', 'V'] => withoutOperands .recv ops
  | ['X', 'M', 'I', 'T'] => withoutOperands .xmit ops
  | ['S', 'E', 'T', 'X', 'M', 'I', 'T'] => withMillis .setxmit ops
  | _ => none

/-- The command a line of text writes (30_encoding.md R48). -/
def commandOfLine (line : List Char) : Option Instr :=
  let part := (commandPart line).dropWhile fun c => c == ' '
  commandOf (part.takeWhile fun c => c != ' ') (operandTexts (part.dropWhile fun c => c != ' '))

end Sys2Proof.Machine
end

