-- ==== Sys2Proof/Machine/HostSide.lean ====
section
/-! DEFINITION. What the spec defines outside the block for the host: the reading of responses as exact rationals,
poll_uint, ms_from_civil, and the assembly of the exchange record. No command uses any of it. -/

namespace Sys2Proof.Machine

/-- The result octets of a response, after its status (30_encoding.md R44). -/
def resultOf (r : List Octet) : List Octet := r.tail

/-- A result read as an unsigned big-endian number (30_encoding.md R44). -/
def resultNat (r : List Octet) : Nat := beValue (resultOf r)

/-- A result read as a two's-complement number of its own width (30_encoding.md R44; 00_scope.md R6). -/
def resultInt (r : List Octet) : Int :=
  let n := (resultOf r).length
  if 2 * resultNat r < 256 ^ n then (resultNat r : Int) else (resultNat r : Int) - 256 ^ n

/-- The exact rational `2^e` (00_scope.md R6). -/
def exponentValue (e : Int) : Rat := if 0 ≤ e then mkRat (2 ^ e.toNat) 1 else mkRat 1 (2 ^ (-e).toNat)

/-- The seconds that a POLL or PREC response stands for (41_header_decode.md R69, R70). -/
def secondsOf (r : List Octet) : Rat := exponentValue (resultInt r)

/-- The milliseconds that an RDEL or RDISP response stands for, N / 8192 (42_root_refid.md R80, R81). -/
def rootMillisOf (r : List Octet) : Rat := mkRat (resultNat r) 8192

/-- The milliseconds that a DELAY response stands for (45_clock_model.md R111). -/
def delayMillisOf (r : List Octet) : Rat := mkRat (resultInt r) 1

/-- The milliseconds that an OFFS response stands for, n2 / 2 (45_clock_model.md R112). -/
def offsetMillisOf (r : List Octet) : Rat := mkRat (resultInt r) 2

/-- `poll_uint`, the poll interval as an unsigned integer; at -1 the open parameter (41_header_decode.md R71; log 8). -/
def pollUint (e : Int) : Nat := if 0 ≤ e then 2 ^ e.toNat else if e = -1 then Config.pollHalfRound.val else 0

/-- `ms_from_civil`, the inverse of `civil_from_ms` for dates from 1900-01-01 on (43_timestamp.md R94, which the spec
marks as general knowledge). UNVERIFIED, unsafe: log 11. -/
def msFromCivil (c : Civil) : Nat :=
  let y := if c.month ≤ 2 then c.year - 1 else c.year
  let era := y / 400
  let yoe := y - era * 400
  let mp := if 2 < c.month then c.month - 3 else c.month + 9
  let doy := (153 * mp + 2) / 5 + c.day - 1
  let doe := yoe * 365 + yoe / 4 - yoe / 100 + doy
  let days := era * 146097 + doe - 693901
  days * 86400000 + c.hour * 3600000 + c.minute * 60000 + c.second * 1000 + c.msec

/-- The four timestamps of an exchange, the operands of DELAY and OFFS; the host's, never the block's
(10_state.md R12; 46_transport_port.md R125). -/
structure ExchangeRecord where
  t1 : Millis
  t2 : Millis
  t3 : Millis
  t4 : Millis
deriving DecidableEq, Repr

/-- A decoded timestamp plus the host's UTC offset; none where no operand can hold it (46_transport_port.md R125;
93 U16). DESIGN CHOICE, safe: log 12. -/
def adjusted (utcOff : Int) (ms : Nat) : Option Millis :=
  let z : Int := (ms : Int) + utcOff
  if 0 ≤ z ∧ z < 2 ^ 64 then some (BitVec.ofInt 64 z) else none

/-- The exchange record from the results of TSDEC 24, TSDEC 32 and TSDEC 40 and the host's reading at receipt: T1 as
it is, T2 and T3 adjusted (46_transport_port.md R125). -/
def exchangeRecord (utcOff : Int) (orig recv xmit : Nat) (t4 : Millis) : Option ExchangeRecord :=
  match adjusted utcOff recv, adjusted utcOff xmit with
  | some t2, some t3 => some { t1 := BitVec.ofNat 64 orig, t2 := t2, t3 := t3, t4 := t4 }
  | _, _ => none

/-- The exchange record with this host's own UTC offset, the open parameter (log 9). -/
def hostExchangeRecord (orig recv xmit : Nat) (t4 : Millis) : Option ExchangeRecord :=
  exchangeRecord Config.utcOffMs orig recv xmit t4

end Sys2Proof.Machine
end

