-- ==== Sys2Proof/Safety.lean ====
section
/-! DEFINITION. What counts as a safe run, in the terms the statements use. -/

namespace Sys2Proof

open Sys2Proof.Machine

/-- A response the block can deliver (30_encoding.md R44; 60_exceptions.md R130): status 0x00 and a result of one of the
lengths of R44, or a fault status 0x01..0x04 alone. -/
def responseWf : List Octet → Bool
  | [] => false
  | status :: result =>
    if status = 0x00 then [0, 1, 5, 8, 9, 19, 48].contains result.length
    else decide (status.toNat ≤ 4) && result.isEmpty

/-- The invariant of the machine: PKT in canonical form inside 0..47, and the response port empty or holding a
response the block can deliver. -/
abbrev Inv (s : State) : Prop := Memory.wf s.pkt = true ∧ s.resp.all responseWf = true

/-- The machine answers a next state. -/
def Completes (o : Result) : Prop := ∃ t, o = .next t

end Sys2Proof
end

