-- ==== Sys2Proof/Certificates/Slice0/Obligations.lean ====
section
/-! DEFINITION. The statements for the provers, from the numbered rules of spec/. Each docstring names the rules it
formalises, or says that it is derived and from what. -/

/-! Vocabulary of the statements, written from the rules and not from the model -/

/-- `be32(a)`: the unsigned big-endian value of `PKT[a] .. PKT[a+3]` (00_scope.md R7). -/
def Sys2Proof.Spec.be32 (s : Sys2Proof.Machine.State) (a : Nat) : Nat :=
  (s.octet a).toNat * 2 ^ 24 + (s.octet (a + 1)).toNat * 2 ^ 16 + (s.octet (a + 2)).toNat * 2 ^ 8
    + (s.octet (a + 3)).toNat

/-- `ts_to_ms(a)` (43_timestamp.md R91). -/
def Sys2Proof.Spec.tsToMs (s : Sys2Proof.Machine.State) (a : Nat) : Nat :=
  Sys2Proof.Spec.be32 s a * 1000 + Sys2Proof.Spec.be32 s (a + 4) * 1000 / 2 ^ 32

/-- Octet `j` of 0..7 of the timestamp that encodes `ms` (43_timestamp.md R96; 00_scope.md R7). -/
def Sys2Proof.Spec.tsOctet (ms j : Nat) : Sys2Proof.Octet :=
  if j < 4 then BitVec.ofNat 8 (ms / 1000 / 256 ^ (3 - j)) else BitVec.ofNat 8 (ms % 1000 * 2 ^ 32 / 1000 / 256 ^ (7 - j))

/-- The first millisecond count that cannot be encoded, 2^32 * 1000 (43_timestamp.md R96). -/
def Sys2Proof.Spec.limit : Nat := 4294967296000

/-- The octet string `w` is the encoding of the command `i`, and decodes to it (30_encoding.md R41 to R43). -/
def Sys2Proof.Spec.Encodes (w : List Sys2Proof.Octet) (i : Sys2Proof.Instr) : Prop :=
  Sys2Proof.encode i = w ∧ Sys2Proof.decode w = .ok i

/-- A command with this opcode and any length but this one answers ERR_LENGTH alone and changes nothing
(30_encoding.md R47; 60_exceptions.md R130, R131). -/
def Sys2Proof.Spec.OnlyLength (op : Sys2Proof.Octet) (len : Nat) : Prop :=
  ∀ (s : Sys2Proof.Machine.State) (c : List Sys2Proof.Octet) (rest : List Sys2Proof.Machine.HostAction),
    s.port = .command c :: rest → c.head? = some op → c.length ≠ len →
    Sys2Proof.Machine.step s = .next { s with port := rest, resp := some [0x02] }

/-- The opcode map: each opcode with the length of its commands (30_encoding.md R41, R43). -/
def Sys2Proof.Spec.opcodeLengths : List (Nat × Nat) :=
  [(0x01, 9), (0x02, 1), (0x03, 1), (0x04, 1), (0x05, 1), (0x06, 1), (0x07, 1), (0x08, 1), (0x09, 1), (0x0A, 1),
   (0x0B, 2), (0x0C, 9), (0x0D, 10), (0x0E, 1), (0x10, 33), (0x11, 33), (0x20, 51), (0x21, 1)]

/-- The status of a command, by the priority of 60_exceptions.md R132. -/
def Sys2Proof.Spec.status (c : List Sys2Proof.Octet) : Sys2Proof.Octet :=
  match c with
  | [] => 0x02
  | op :: operands =>
    match Sys2Proof.Spec.opcodeLengths.lookup op.toNat with
    | none => 0x01
    | some len =>
      if operands.length + 1 ≠ len then 0x02
      else if (op = 0x0B ∨ op = 0x0D) ∧ 40 < (operands.headD 0).toNat then 0x03
      else if (op = 0x01 ∧ Sys2Proof.Spec.limit ≤ Sys2Proof.beValue operands)
          ∨ (op = 0x0D ∧ Sys2Proof.Spec.limit ≤ Sys2Proof.beValue operands.tail) then 0x04
      else 0x00

/-- Kind and payload of the Reference Identifier (42_root_refid.md R82, R83). -/
def Sys2Proof.Spec.refId (s : Sys2Proof.Machine.State) : Nat × Nat :=
  let stratum := (s.octet 1).toNat
  let version := (s.octet 0).toNat / 8 % 8
  if stratum ≤ 1 then (0, Sys2Proof.Spec.be32 s 12)
  else if stratum ≤ 15 then
    if version = 3 then (1, Sys2Proof.Spec.be32 s 12)
    else if version = 4 then (2, Sys2Proof.Spec.tsToMs s 12)
    else (3, 0)
  else (3, 0)

/-- The offsets of PKT that a command may write (10_state.md R19). -/
def Sys2Proof.Spec.writes (i : Sys2Proof.Instr) (a : Nat) : Prop :=
  match i with
  | .init _ => a < 48
  | .tsenc off _ => off.toNat ≤ a ∧ a < off.toNat + 8
  | .rxload n _ => a < min n.toNat 48
  | _ => False

/-- The number of octets of a command's OK response (30_encoding.md R44). -/
def Sys2Proof.Spec.responseLength : Sys2Proof.Instr → Nat
  | .init _ | .tsenc _ _ | .rxload _ _ => 1
  | .li | .vn | .mode | .strat | .poll | .prec | .valid => 2
  | .rdel | .rdisp => 6
  | .refid | .delay _ _ _ _ | .offs _ _ _ _ => 10
  | .tsdec _ => 9
  | .ms2cal _ => 20
  | .txread => 49

/-- Leap years of the Gregorian calendar up to and including a year. -/
def Sys2Proof.Spec.leapYearsTo (y : Nat) : Nat := y / 4 - y / 100 + y / 400

/-- A Gregorian leap year. -/
def Sys2Proof.Spec.isLeap (y : Nat) : Bool := (y % 4 == 0 && y % 100 != 0) || y % 400 == 0

/-- Days of a month of the Gregorian calendar. -/
def Sys2Proof.Spec.daysInMonth (y m : Nat) : Nat :=
  if m = 2 then (if Sys2Proof.Spec.isLeap y then 29 else 28) else if m = 4 ∨ m = 6 ∨ m = 9 ∨ m = 11 then 30 else 31

/-- Days of a year before the first of a month. -/
def Sys2Proof.Spec.daysBeforeMonth (y m : Nat) : Nat :=
  ((List.range (m - 1)).map fun k => Sys2Proof.Spec.daysInMonth y (k + 1)).sum

/-- Days from 1900-01-01 to a date of 1900 or later, by counting years, months and days. -/
def Sys2Proof.Spec.daysSince1900 (y m d : Nat) : Nat :=
  365 * (y - 1900) + (Sys2Proof.Spec.leapYearsTo (y - 1) - Sys2Proof.Spec.leapYearsTo 1899)
    + Sys2Proof.Spec.daysBeforeMonth y m + (d - 1)

open Sys2Proof Sys2Proof.Machine

/-! Reset and the step -/

/-- Derived (10_state.md section 4; 70_reset_and_hazards.md section 1). Power-on leaves every octet of PKT 0x00 and RXLEN
0, and so does the reset action from any state. What happens to the two ports is the model's choice: logs 2 and 3. -/
def Obligations.ResetClearsBufferAndLength : Prop :=
  (∀ a, State.reset.octet a = 0x00) ∧ State.reset.rxlen = 0 ∧
  ∀ (s : State) (rest : List HostAction), s.port = .reset :: rest →
    ∃ t, step s = .next t ∧ (∀ a, t.octet a = 0x00) ∧ t.rxlen = 0 ∧ t.port = rest ∧ t.resp = none

/-- Derived (10_state.md section 4, "In the reset state the decode commands give"). In the reset state LI, VN, MODE, STRAT,
POLL, PREC and VALID answer code 0, RDEL and RDISP 0, REFID kind ASCII with payload 0, and TSDEC 0 at every legal offset. -/
def Obligations.DecodersAtReset : Prop :=
  (∀ i ∈ [Instr.li, .vn, .mode, .strat, .poll, .prec, .valid],
    exec i State.reset = .next { State.reset with resp := some [0x00, 0x00] }) ∧
  (∀ i ∈ [Instr.rdel, .rdisp], exec i State.reset = .next { State.reset with resp := some (List.replicate 6 0x00) }) ∧
  exec .refid State.reset = .next { State.reset with resp := some (List.replicate 10 0x00) } ∧
  ∀ off : Octet, off.toNat ≤ 40 →
    exec (.tsdec off) State.reset = .next { State.reset with resp := some (List.replicate 9 0x00) }

/-- Derived (20_memory.md section 4; 30_encoding.md section 1). A step takes the oldest command off the port and, where it
decodes, is exec of it at the state with that command taken; the port as a field is the model's choice: log 1. -/
def Obligations.StepRunsTheDecodedCommand : Prop :=
  ∀ (s : State) (c : List Octet) (rest : List HostAction) (i : Instr),
    s.port = .command c :: rest → decode c = .ok i → step s = exec i { s with port := rest }

/-- Derived (60_exceptions.md section 5, "between commands the block is idle and keeps PKT and RXLEN"); a step that takes
nothing is the model's choice: log 7. -/
def Obligations.IdleStepKeepsTheState : Prop := ∀ s : State, s.port = [] → step s = .next s

/-! The encoding -/

/-- Derived (30_encoding.md sections 1 and 2; words from 95_test_vectors.md sections 2 and 3). Words written out from the
spec decode to the commands they stand for. -/
def Obligations.WordsOfTheSpecDecode : Prop :=
  decode [0x01, 0x00, 0x00, 0x03, 0x8F, 0x14, 0x50, 0x18, 0x7B] = .ok (.init 3913056000123) ∧
  decode [0x02] = .ok .li ∧ decode [0x0A] = .ok .refid ∧ decode [0x0E] = .ok .valid ∧ decode [0x21] = .ok .txread ∧
  decode [0x0B, 0x28] = .ok (.tsdec 40) ∧
  decode [0x0C, 0x00, 0x00, 0x03, 0x8F, 0x14, 0x50, 0x19, 0x2D] = .ok (.ms2cal 3913056000301) ∧
  decode [0x0D, 0x28, 0x00, 0x00, 0x03, 0xE7, 0xFF, 0xFF, 0xFF, 0xFF] = .ok (.tsenc 40 4294967295999)

/-- Derived (30_encoding.md R41 to R43 read together). Decoding the encoding of any well-formed command gives the command
back: no operand bit is dropped. -/
def Obligations.DecodeOfEncode : Prop := ∀ i : Instr, i.wellFormed = true → decode (encode i) = .ok i

/-- Derived (30_encoding.md R40 to R43, R47 read together). What decodes is the encoding of the well-formed command it
decodes to: no two octet strings give one command, and no octet of an accepted string is ignored. -/
def Obligations.EncodeOfDecode : Prop :=
  ∀ (c : List Octet) (i : Instr), decode c = .ok i → i.wellFormed = true ∧ encode i = c

/-- Stated, 30_encoding.md R46. The illegal opcodes fault with ERR_OPCODE and change nothing; every other opcode value
decodes at its own length whatever the operand bits; every octet string gets a command or a fault. -/
def Obligations.IllegalOpcodesFault : Prop :=
  (∀ (s : State) (op : Octet) (operands : List Octet) (rest : List HostAction),
    s.port = .command (op :: operands) :: rest →
    op = 0x00 ∨ op = 0x0F ∨ (0x12 ≤ op.toNat ∧ op.toNat ≤ 0x1F) ∨ 0x22 ≤ op.toNat →
    step s = .next { s with port := rest, resp := some [0x01] }) ∧
  (∀ (op : Octet) (operands : List Octet),
    ¬ (op = 0x00 ∨ op = 0x0F ∨ (0x12 ≤ op.toNat ∧ op.toNat ≤ 0x1F) ∨ 0x22 ≤ op.toNat) →
    ∃ len, Spec.opcodeLengths.lookup op.toNat = some len ∧
      (operands.length + 1 = len → ∃ i, decode (op :: operands) = .ok i)) ∧
  ∀ c : List Octet, (∃ i, decode c = .ok i) ∨ ∃ f, decode c = .error f

/-- Stated, 30_encoding.md R47. The decoder's order: zero length, unknown opcode, wrong length, then the operands, which
are those whose encoding the octets are. -/
def Obligations.DecoderOrder : Prop :=
  decode [] = .error .errLength ∧
  ∀ (op : Octet) (operands : List Octet),
    match Spec.opcodeLengths.lookup op.toNat with
    | none => decode (op :: operands) = .error .errOpcode
    | some len =>
      if operands.length + 1 = len then ∃ i, decode (op :: operands) = .ok i ∧ encode i = op :: operands
      else decode (op :: operands) = .error .errLength

/-- Stated, 30_encoding.md R49. Each pseudo-command expands to one command. -/
def Obligations.PseudoCommandsExpand : Prop :=
  Instr.refts = .tsdec 16 ∧ Instr.orig = .tsdec 24 ∧ Instr.recv = .tsdec 32 ∧ Instr.xmit = .tsdec 40 ∧
  ∀ ms, Instr.setxmit ms = .tsenc 40 ms

/-- Derived (30_encoding.md section 5, the examples of the textual syntax; details of the text beyond them are the
model's: log 14). The lines the spec writes as examples are the commands it means by them. -/
def Obligations.ExampleLinesOfText : Prop :=
  commandOfLine "INIT 3913056000000".toList = some (.init 3913056000000) ∧
  commandOfLine "TSDEC 40".toList = some (.tsdec 40) ∧
  commandOfLine "TSENC 40, 0x0000_038F_1450_1800".toList = some (.tsenc 40 3913056000000) ∧
  commandOfLine "DELAY 0, 1000, 1200, 2500 => OK 2300".toList = some (.delay 0 1000 1200 2500) ∧
  commandOfLine "VALID ; is it a reply".toList = some .valid ∧
  commandOfLine "XMIT".toList = some (.tsdec 40)

/-- Stated, 30_encoding.md R45. The result codes of the enumerations. -/
def Obligations.EnumerationCodes : Prop :=
  [LeapIndicator.noWarning, .lastMinute61, .lastMinute59, .alarm].map leapCode = [0, 1, 2, 3] ∧
  [PacketMode.unknown, .symmetricActive, .symmetricPassive, .client, .server, .broadcast].map modeCode
    = [0, 1, 2, 3, 4, 5] ∧
  [StratumClass.unspecified, .primaryReference, .secondaryReference, .reserved].map stratumCode = [0, 1, 2, 3] ∧
  [RefIdKind.ascii, .ipv4, .tstamp, .na].map refIdCode = [0, 1, 2, 3] ∧
  [false, true].map boolCode = [0, 1]

/-! Memory -/

/-- Stated, 00_scope.md R7. MemRead is the big-endian sum and MemWrite sets the octets of the value and changes nothing
else, both inside the buffer. -/
def Obligations.MemReadAndMemWrite : Prop :=
  (∀ (s : State) (a n : Nat) (k : Nat → Result), a + n ≤ 48 →
    memRead s a n k = k (∑ i ∈ Finset.range n, (s.octet (a + i)).toNat * 256 ^ (n - 1 - i))) ∧
  ∀ (s : State) (a n v : Nat) (k : State → Result), v < 256 ^ n → a + n ≤ 48 →
    ∃ t, memWrite s a n v k = k t ∧
      (∀ i, i < n → t.octet (a + i) = BitVec.ofNat 8 (v / 256 ^ (n - 1 - i) % 256)) ∧
      (∀ x, x < a ∨ a + n ≤ x → t.octet x = s.octet x) ∧ t.rxlen = s.rxlen ∧ t.port = s.port ∧ t.resp = s.resp

/-! The commands, one statement each: the result, the frame, the encoding and the length fault -/

/-- Stated, 40_request_init.md R60. INIT from any state: ERR_RANGE with nothing changed from 2^32 * 1000 on; below it the
header octet 0x1B, the timestamp of `now` at 40..47, zero elsewhere, RXLEN 0. Offsets from 48 up are no octets of PKT and
stay as they were. -/
def Obligations.InitBuildsTheRequest : Prop :=
  (∀ (s : State) (now : Millis), Spec.limit ≤ now.toNat →
    exec (.init now) s = .next { s with resp := some [0x04] }) ∧
  (∀ (s : State) (now : Millis), now.toNat < Spec.limit →
    ∃ t, exec (.init now) s = .next t ∧ t.rxlen = 0 ∧ t.port = s.port ∧ t.resp = some [0x00] ∧
      ∀ a, t.octet a = if a = 0 then 0x1B else if a < 40 then 0x00 else if a < 48 then Spec.tsOctet now.toNat (a - 40)
        else s.octet a) ∧
  (∀ now : Millis, Spec.Encodes (0x01 :: beOctets 8 now.toNat) (.init now)) ∧ Spec.OnlyLength 0x01 9

/-- Stated, 41_header_decode.md R65. LI answers PKT[0] div 64 and changes nothing else. -/
def Obligations.LiAnswersBitsSevenSix : Prop :=
  (∀ s : State, exec .li s = .next { s with resp := some [0x00, BitVec.ofNat 8 ((s.octet 0).toNat / 64)] }) ∧
  Spec.Encodes [0x02] .li ∧ Spec.OnlyLength 0x02 1

/-- Stated, 41_header_decode.md R66. VN answers (PKT[0] div 8) mod 8 and changes nothing else. -/
def Obligations.VnAnswersBitsFiveToThree : Prop :=
  (∀ s : State, exec .vn s = .next { s with resp := some [0x00, BitVec.ofNat 8 ((s.octet 0).toNat / 8 % 8)] }) ∧
  Spec.Encodes [0x03] .vn ∧ Spec.OnlyLength 0x03 1

/-- Stated, 41_header_decode.md R67. MODE answers PKT[0] mod 8 where that is 1..5, else 0, and changes nothing else. -/
def Obligations.ModeAnswersBitsTwoToZero : Prop :=
  (∀ s : State, exec .mode s = .next { s with resp := some [0x00,
    if 1 ≤ (s.octet 0).toNat % 8 ∧ (s.octet 0).toNat % 8 ≤ 5 then BitVec.ofNat 8 ((s.octet 0).toNat % 8) else 0x00] }) ∧
  Spec.Encodes [0x04] .mode ∧ Spec.OnlyLength 0x04 1

/-- Stated, 41_header_decode.md R68. STRAT answers the class of PKT[1] and changes nothing else. -/
def Obligations.StratAnswersTheClass : Prop :=
  (∀ s : State, exec .strat s = .next { s with resp := some [0x00,
    if (s.octet 1).toNat = 0 then 0x00 else if (s.octet 1).toNat = 1 then 0x01 else if (s.octet 1).toNat ≤ 15 then 0x02
    else 0x03] }) ∧
  Spec.Encodes [0x05] .strat ∧ Spec.OnlyLength 0x05 1

/-- Stated, 41_header_decode.md R69. POLL answers the octet PKT[2], which the host reads as 2^e seconds with e its
two's-complement value; nothing else changes. -/
def Obligations.PollAnswersTheExponent : Prop :=
  (∀ s : State, exec .poll s = .next { s with resp := some [0x00, s.octet 2] } ∧
    secondsOf [0x00, s.octet 2] = (2 : ℚ) ^ (s.octet 2).toInt) ∧
  Spec.Encodes [0x06] .poll ∧ Spec.OnlyLength 0x06 1

/-- Stated, 41_header_decode.md R70. PREC answers the octet PKT[3], which the host reads as 2^e seconds with e its
two's-complement value; nothing else changes. -/
def Obligations.PrecAnswersTheExponent : Prop :=
  (∀ s : State, exec .prec s = .next { s with resp := some [0x00, s.octet 3] } ∧
    secondsOf [0x00, s.octet 3] = (2 : ℚ) ^ (s.octet 3).toInt) ∧
  Spec.Encodes [0x07] .prec ∧ Spec.OnlyLength 0x07 1

/-- Stated, 41_header_decode.md R71. `poll_uint`: 2^e from 0 up, 0 from -2 down, and at -1 the open parameter, which is 0
or 1. It holds for both values. -/
def Obligations.PollUintRendering : Prop :=
  (∀ e : Int, 0 ≤ e → pollUint e = 2 ^ e.toNat) ∧ (∀ e : Int, e ≤ -2 → pollUint e = 0) ∧
  pollUint (-1) = Config.pollHalfRound.val ∧ (pollUint (-1) = 0 ∨ pollUint (-1) = 1)

/-- Stated, 42_root_refid.md R80. RDEL answers the field at 4..7 times 125 in 40 bits, which the host reads as
raw / 65536 * 1000 milliseconds; nothing else changes. -/
def Obligations.RdelAnswersRootDelay : Prop :=
  (∀ s : State, exec .rdel s = .next { s with resp := some (0x00 :: beOctets 5 (Spec.be32 s 4 * 125)) } ∧
    rootMillisOf (0x00 :: beOctets 5 (Spec.be32 s 4 * 125)) = (Spec.be32 s 4 : ℚ) / 65536 * 1000) ∧
  Spec.Encodes [0x08] .rdel ∧ Spec.OnlyLength 0x08 1

/-- Stated, 42_root_refid.md R81. RDISP is RDEL on the field at 8..11. -/
def Obligations.RdispAnswersRootDispersion : Prop :=
  (∀ s : State, exec .rdisp s = .next { s with resp := some (0x00 :: beOctets 5 (Spec.be32 s 8 * 125)) } ∧
    rootMillisOf (0x00 :: beOctets 5 (Spec.be32 s 8 * 125)) = (Spec.be32 s 8 : ℚ) / 65536 * 1000) ∧
  Spec.Encodes [0x09] .rdisp ∧ Spec.OnlyLength 0x09 1

/-- Stated, 42_root_refid.md R82 and R83. REFID answers the kind of the stratum class and version in the buffer and its
payload; nothing else changes. -/
def Obligations.RefidAnswersKindAndPayload : Prop :=
  (∀ s : State, exec .refid s = .next { s with
    resp := some (0x00 :: BitVec.ofNat 8 (Spec.refId s).1 :: beOctets 8 (Spec.refId s).2) }) ∧
  (∀ (sc : StratumClass) (vn : Nat), vn < 8 → refIdCode (refIdKind sc vn) =
    if sc = .unspecified ∨ sc = .primaryReference then 0
    else if sc = .secondaryReference ∧ vn = 3 then 1 else if sc = .secondaryReference ∧ vn = 4 then 2 else 3) ∧
  Spec.Encodes [0x0A] .refid ∧ Spec.OnlyLength 0x0A 1

/-- Stated, 43_timestamp.md R91. TSDEC at any offset up to 40 answers ts_to_ms, at most 4294967295999; above 40 it answers
ERR_BOUNDS; nothing else changes. -/
def Obligations.TsdecAnswersMilliseconds : Prop :=
  (∀ (s : State) (off : Octet), off.toNat ≤ 40 →
    exec (.tsdec off) s = .next { s with resp := some (0x00 :: beOctets 8 (Spec.tsToMs s off.toNat)) } ∧
    Spec.tsToMs s off.toNat ≤ 4294967295999) ∧
  (∀ (s : State) (off : Octet), 40 < off.toNat → exec (.tsdec off) s = .next { s with resp := some [0x03] }) ∧
  (∀ off : Octet, Spec.Encodes [0x0B, off] (.tsdec off)) ∧ Spec.OnlyLength 0x0B 2

/-- Derived (43_timestamp.md section MS2CAL; the broken-down fields rest on what the spec marks as general knowledge,
93_implementation_defined.md G2: log 11). MS2CAL answers the instant unchanged and calendar fields in their ranges and
widths, from which ms_from_civil gives the instant back; no operand faults and nothing else changes. -/
def Obligations.MsToCalAnswersInstantAndCalendar : Prop :=
  (∀ (s : State) (ms : Millis), ∃ c : Civil,
    exec (.ms2cal ms) s = .next { s with resp := some (0x00 :: (beOctets 8 ms.toNat ++ beOctets 4 c.year
      ++ [BitVec.ofNat 8 c.month, BitVec.ofNat 8 c.day, BitVec.ofNat 8 c.hour, BitVec.ofNat 8 c.minute,
          BitVec.ofNat 8 c.second] ++ beOctets 2 c.msec)) } ∧
    1900 ≤ c.year ∧ c.year < 2 ^ 32 ∧ 1 ≤ c.month ∧ c.month ≤ 12 ∧ 1 ≤ c.day ∧ c.day ≤ 31 ∧ c.hour < 24 ∧
    c.minute < 60 ∧ c.second < 60 ∧ c.msec < 1000 ∧ msFromCivil c = ms.toNat) ∧
  (∀ ms : Millis, Spec.Encodes (0x0C :: beOctets 8 ms.toNat) (.ms2cal ms)) ∧ Spec.OnlyLength 0x0C 9

/-- Derived (43_timestamp.md section MS2CAL, "in the proleptic Gregorian calendar with every day exactly 86400000 ms
long", which the spec marks as general knowledge: log 11). The calendar fields lie in their ranges, the day exists in its
month, and they are those found by counting years, months and days from 1900-01-01. -/
def Obligations.CivilFieldsCountGregorianDays : Prop :=
  ∀ ms : Nat, ∃ c : Civil, civilFromMs ms = c ∧ 1900 ≤ c.year ∧ 1 ≤ c.month ∧ c.month ≤ 12 ∧ 1 ≤ c.day ∧
    c.day ≤ Spec.daysInMonth c.year c.month ∧ c.hour < 24 ∧ c.minute < 60 ∧ c.second < 60 ∧ c.msec < 1000 ∧
    ms = Spec.daysSince1900 c.year c.month c.day * 86400000 + c.hour * 3600000 + c.minute * 60000 + c.second * 1000
      + c.msec

/-- Stated, 43_timestamp.md R96. TSENC: ERR_BOUNDS above offset 40; else ERR_RANGE from 2^32 * 1000 on, both with nothing
changed; else the eight octets of the timestamp at the offset, and no other octet and not RXLEN. -/
def Obligations.TsencWritesTheTimestamp : Prop :=
  (∀ (s : State) (off : Octet) (ms : Millis), 40 < off.toNat →
    exec (.tsenc off ms) s = .next { s with resp := some [0x03] }) ∧
  (∀ (s : State) (off : Octet) (ms : Millis), off.toNat ≤ 40 → Spec.limit ≤ ms.toNat →
    exec (.tsenc off ms) s = .next { s with resp := some [0x04] }) ∧
  (∀ (s : State) (off : Octet) (ms : Millis), off.toNat ≤ 40 → ms.toNat < Spec.limit →
    ∃ t, exec (.tsenc off ms) s = .next t ∧ t.rxlen = s.rxlen ∧ t.port = s.port ∧ t.resp = some [0x00] ∧
      ∀ a, t.octet a =
        if off.toNat ≤ a ∧ a < off.toNat + 8 then Spec.tsOctet ms.toNat (a - off.toNat) else s.octet a) ∧
  (∀ (off : Octet) (ms : Millis), Spec.Encodes (0x0D :: off :: beOctets 8 ms.toNat) (.tsenc off ms)) ∧
  Spec.OnlyLength 0x0D 10

/-- Stated, 44_validate.md R105. VALID answers 1 exactly where RXLEN >= 48 and the Mode field is 4; nothing else is
examined and nothing else changes. -/
def Obligations.ValidTestsLengthAndMode : Prop :=
  (∀ s : State, exec .valid s = .next { s with
    resp := some [0x00, if 48 ≤ s.rxlen.toNat ∧ (s.octet 0).toNat % 8 = 4 then 0x01 else 0x00] }) ∧
  Spec.Encodes [0x0E] .valid ∧ Spec.OnlyLength 0x0E 1

/-- Stated, 45_clock_model.md R111. DELAY answers tc_72 of (t4 - t1) - (t3 - t2) over the integers, which the nine octets
hold exactly and which lies within 2^65; nothing else changes and nothing of the state is read. -/
def Obligations.DelayAnswersRoundTrip : Prop :=
  (∀ (s : State) (t1 t2 t3 t4 : Millis) (d : Int),
    d = ((t4.toNat : Int) - t1.toNat) - ((t3.toNat : Int) - t2.toNat) →
    exec (.delay t1 t2 t3 t4) s = .next { s with resp := some (0x00 :: beOctets 9 (d % 2 ^ 72).toNat) } ∧
    delayMillisOf (0x00 :: beOctets 9 (d % 2 ^ 72).toNat) = (d : ℚ) ∧ -2 ^ 65 < d ∧ d < 2 ^ 65) ∧
  (∀ t1 t2 t3 t4 : Millis, Spec.Encodes
    (0x10 :: (beOctets 8 t1.toNat ++ beOctets 8 t2.toNat ++ beOctets 8 t3.toNat ++ beOctets 8 t4.toNat))
    (.delay t1 t2 t3 t4)) ∧ Spec.OnlyLength 0x10 33

/-- Stated, 45_clock_model.md R112. OFFS answers tc_72 of n2 = (t2 - t1) + (t3 - t4) over the integers, which the host
reads exactly as n2 / 2 milliseconds; nothing else changes and nothing of the state is read. -/
def Obligations.OffsAnswersOffsetNumerator : Prop :=
  (∀ (s : State) (t1 t2 t3 t4 : Millis) (n2 : Int),
    n2 = ((t2.toNat : Int) - t1.toNat) + ((t3.toNat : Int) - t4.toNat) →
    exec (.offs t1 t2 t3 t4) s = .next { s with resp := some (0x00 :: beOctets 9 (n2 % 2 ^ 72).toNat) } ∧
    offsetMillisOf (0x00 :: beOctets 9 (n2 % 2 ^ 72).toNat) = (n2 : ℚ) / 2 ∧ -2 ^ 65 < n2 ∧ n2 < 2 ^ 65) ∧
  (∀ t1 t2 t3 t4 : Millis, Spec.Encodes
    (0x11 :: (beOctets 8 t1.toNat ++ beOctets 8 t2.toNat ++ beOctets 8 t3.toNat ++ beOctets 8 t4.toNat))
    (.offs t1 t2 t3 t4)) ∧ Spec.OnlyLength 0x11 33

/-- Stated, 46_transport_port.md R120. RXLOAD writes the first min(n, 48) data octets, leaves every other octet, and sets
RXLEN to all of n; no operand value faults. -/
def Obligations.RxloadDeliversTheDatagram : Prop :=
  (∀ (s : State) (n : Count) (data : List Octet), data.length = 48 →
    ∃ t, exec (.rxload n data) s = .next t ∧ t.rxlen = n ∧ t.port = s.port ∧ t.resp = some [0x00] ∧
      ∀ a, t.octet a = if a < min n.toNat 48 then data.getD a 0x00 else s.octet a) ∧
  (∀ (n : Count) (data : List Octet), data.length = 48 →
    Spec.Encodes (0x20 :: (beOctets 2 n.toNat ++ data)) (.rxload n data)) ∧ Spec.OnlyLength 0x20 51

/-- Stated, 46_transport_port.md R121. TXREAD answers the 48 octets, offset 0 first, and changes nothing else. -/
def Obligations.TxreadAnswersTheBuffer : Prop :=
  (∀ s : State, exec .txread s = .next { s with resp := some (0x00 :: (List.range 48).map s.octet) }) ∧
  Spec.Encodes [0x21] .txread ∧ Spec.OnlyLength 0x21 1

/-! Faults -/

/-- Stated, 60_exceptions.md R130 and R132. Every command presented gets exactly one status, by the priority of R132, so
never one above 0x04; a fault's response is that one octet. -/
def Obligations.OneStatusByPriority : Prop :=
  ∀ (s : State) (c : List Octet) (rest : List HostAction), s.port = .command c :: rest →
    ∃ t r, step s = .next t ∧ t.port = rest ∧ t.resp = some (Spec.status c :: r) ∧ (Spec.status c ≠ 0x00 → r = [])

/-- Stated, 60_exceptions.md R131. A faulting command leaves PKT and RXLEN as they were, its response is the single status
octet, no command reads an earlier response, and whatever the host presented next runs as if the faulting command had never
been issued. -/
def Obligations.FaultLeavesNoTrace : Prop :=
  (∀ (s : State) (c : List Octet) (rest : List HostAction), s.port = .command c :: rest → Spec.status c ≠ 0x00 →
    ∃ t, step s = .next t ∧ t = { s with port := rest, resp := some [Spec.status c] } ∧
      (rest ≠ [] → step t = step { s with port := rest })) ∧
  ∀ (i : Instr) (s : State) (r : Option (List Octet)), exec i { s with resp := r } = exec i s

/-! Whole-machine statements -/

/-- Stated, 10_state.md R11. RXLEN is written by reset, INIT and RXLOAD only, with 0, 0 and n, and no command but VALID
depends on it. -/
def Obligations.RxlenWritersAndReaders : Prop :=
  (∀ (s : State) (rest : List HostAction), s.port = .reset :: rest → ∃ t, step s = .next t ∧ t.rxlen = 0) ∧
  (∀ (i : Instr) (s t : State), exec i s = .next t →
    t.rxlen = match i with
      | .init _ => if t.resp = some [0x00] then 0 else s.rxlen
      | .rxload n _ => n
      | _ => s.rxlen) ∧
  ∀ (i : Instr) (s : State) (n : Count), i ≠ .valid →
    ∃ t t', exec i s = .next t ∧ exec i { s with rxlen := n } = .next t' ∧ t'.pkt = t.pkt ∧ t'.resp = t.resp

/-- Derived (10_state.md section 5). The frame of every command: no octet of PKT outside the command's write set changes,
no command but INIT and RXLOAD changes RXLEN, none touches the command port, and one that answers a fault writes nothing. -/
def Obligations.WriteSets : Prop :=
  ∀ (i : Instr) (s t : State), exec i s = .next t →
    (∀ a, ¬ Spec.writes i a → t.octet a = s.octet a) ∧
    ((∀ now, i ≠ .init now) → (∀ n data, i ≠ .rxload n data) → t.rxlen = s.rxlen) ∧ t.port = s.port ∧
    (∀ r, t.resp = some r → r.head? ≠ some 0x00 → t.pkt = s.pkt ∧ t.rxlen = s.rxlen)

/-- Derived (10_state.md section 1, "No command reads or writes an octet outside 0..47"). Two states that agree on
PKT[0..47] and RXLEN get the same response from every command, and agree on them afterwards. No command changes an offset
from 48 up or the command port. That State has room for such offsets and holds the port is the model's choice: logs 1
and 5. -/
def Obligations.CommandsSeeOnlyTheBlock : Prop :=
  (∀ (i : Instr) (s s' : State), (∀ a, a < 48 → s.octet a = s'.octet a) → s.rxlen = s'.rxlen →
    ∃ t t', exec i s = .next t ∧ exec i s' = .next t' ∧ t.resp = t'.resp ∧ t.rxlen = t'.rxlen ∧
      ∀ a, a < 48 → t.octet a = t'.octet a) ∧
  ∀ (i : Instr) (s t : State), exec i s = .next t → (∀ a, 48 ≤ a → t.octet a = s.octet a) ∧ t.port = s.port

/-- Derived (30_encoding.md section 3). The number of octets of every response. -/
def Obligations.ResponseLengths : Prop :=
  ∀ (i : Instr) (s t : State), exec i s = .next t →
    ∃ status result, t.resp = some (status :: result) ∧
      (status = 0x00 → result.length + 1 = Spec.responseLength i) ∧ (status ≠ 0x00 → result = [])

/-- Derived (10_state.md sections 1 and 4; 30_encoding.md section 3). The state after reset meets the invariant.
The cell list and the response field are the model's choice: logs 3 and 5. -/
def Obligations.ResetMeetsTheInvariant : Prop := Inv State.reset

/-- Derived (10_state.md section 1; 30_encoding.md section 3; 60_exceptions.md section 1). Every step keeps the invariant:
PKT in canonical form inside 0..47, and the response port empty or holding a response the block can deliver. The cell list
and the response field are the model's choice: logs 3 and 5. -/
def Obligations.StepKeepsTheInvariant : Prop := ∀ s t : State, Inv s → step s = .next t → Inv t

/-- Derived (46_transport_port.md section The host, "it answers every well-formed command"; 30_encoding.md section 4, "every
octet string gets exactly one of a command or a fault"). From every state, however many steps are taken, the machine never
stops: no run ends in a fault or refusal of the model. That a step with nothing presented goes on is the
model's choice: log 7. -/
def Obligations.EveryRunGoesOn : Prop := ∀ (k : Nat) (s : State), ∃ t, Host.Core.run core k s = .next t

/-- Derived (40_request_init.md section INIT, "INIT does not depend on the previous contents of PKT or RXLEN"). A successful
INIT gives the same block from any state with PKT in canonical form as it gives from reset. The
canonical form is the model's choice: log 5. -/
def Obligations.InitForgetsTheState : Prop :=
  ∀ (s : State) (now : Millis), Memory.wf s.pkt = true → now.toNat < Spec.limit →
    exec (.init now) s = exec (.init now) { State.reset with port := s.port }

/-- Derived (40_request_init.md, the request image). TXREAD after a successful INIT answers the request: 0x1B, 39 zero
octets, and the timestamp of `now`. -/
def Obligations.RequestImage : Prop :=
  ∀ (s : State) (now : Millis), now.toNat < Spec.limit →
    ∃ t, exec (.init now) s = .next t ∧ exec .txread t = .next { t with
      resp := some (0x00 :: 0x1B :: (List.replicate 39 0x00 ++ (List.range 8).map (Spec.tsOctet now.toNat))) }

/-- Derived (44_validate.md section VALID, corner cases; 70_reset_and_hazards.md section 2). VALID after RXLOAD depends on
the byte count and the Mode bits of the first data octet alone, and is 0 after every datagram shorter than 48. -/
def Obligations.ValidAfterRxload : Prop :=
  ∀ (s : State) (n : Count) (data : List Octet), data.length = 48 →
    ∃ t, exec (.rxload n data) s = .next t ∧ exec .valid t = .next { t with
      resp := some [0x00, if 48 ≤ n.toNat ∧ (data.getD 0 0x00).toNat % 8 = 4 then 0x01 else 0x00] }

/-- Derived (43_timestamp.md section Round trip and range, laws (a) and (b)). Encoding a count and decoding it gives the
count where its last three decimal digits are a multiple of 125, and one less otherwise. -/
def Obligations.EncodeThenDecodeTimestamp : Prop :=
  ∀ (s : State) (off : Octet) (ms : Millis), off.toNat ≤ 40 → ms.toNat < Spec.limit →
    ∃ t, exec (.tsenc off ms) s = .next t ∧ exec (.tsdec off) t = .next { t with resp := some (0x00 ::
      beOctets 8 (if ms.toNat % 1000 % 125 = 0 then ms.toNat else ms.toNat - 1)) }

/-- Derived (43_timestamp.md section Round trip and range, law (c)). Decoding any field, encoding the result in its place
and decoding again gives the first result or one less, and the encoded fraction does not exceed the field's. -/
def Obligations.DecodeEncodeDecodeTimestamp : Prop :=
  ∀ (s : State) (off : Octet), off.toNat ≤ 40 →
    ∃ t m, exec (.tsenc off (BitVec.ofNat 64 (Spec.tsToMs s off.toNat))) s = .next t ∧ t.resp = some [0x00] ∧
      Spec.be32 t (off.toNat + 4) ≤ Spec.be32 s (off.toNat + 4) ∧
      exec (.tsdec off) t = .next { t with resp := some (0x00 :: beOctets 8 m) } ∧
      (m = Spec.tsToMs s off.toNat ∨ m + 1 = Spec.tsToMs s off.toNat)

/-- Derived (70_reset_and_hazards.md section 2, "One millisecond may be lost in a time stamp"). Where a reply's Originate
field repeats the request's Transmit Timestamp, TSDEC 24 on the reply gives `now` or `now - 1`. -/
def Obligations.EchoedRequestTime : Prop :=
  ∀ (s : State) (now : Millis) (n : Count) (data : List Octet), now.toNat < Spec.limit → 48 ≤ n.toNat →
    data.length = 48 → (∀ j, j < 8 → data.getD (24 + j) 0x00 = Spec.tsOctet now.toNat j) →
    ∃ t u m, exec (.init now) s = .next t ∧ exec (.rxload n data) t = .next u ∧
      exec .orig u = .next { u with resp := some (0x00 :: beOctets 8 m) } ∧ (m = now.toNat ∨ m + 1 = now.toNat)

/-- Derived (45_clock_model.md section Arithmetic laws, (b), (c), (d)), read off the responses: delay and offset numerator
have the parity relation, a common shift of all operands changes neither, and exchanging client and server negates the
offset. -/
def Obligations.ClockLaws : Prop :=
  ∀ (s : State) (t1 t2 t3 t4 : Millis), ∃ rd ro ro',
    exec (.delay t1 t2 t3 t4) s = .next { s with resp := some rd } ∧
    exec (.offs t1 t2 t3 t4) s = .next { s with resp := some ro } ∧
    exec (.offs t2 t1 t4 t3) s = .next { s with resp := some ro' } ∧
    resultInt rd + resultInt ro = 2 * ((t2.toNat : Int) - t1.toNat) ∧
    resultInt rd - resultInt ro = 2 * ((t4.toNat : Int) - t3.toNat) ∧
    resultInt ro' = - resultInt ro ∧
    (∀ (u1 u2 u3 u4 : Millis) (k : Int), (u1.toNat : Int) = t1.toNat + k → (u2.toNat : Int) = t2.toNat + k →
      (u3.toNat : Int) = t3.toNat + k → (u4.toNat : Int) = t4.toNat + k →
      exec (.delay u1 u2 u3 u4) s = .next { s with resp := some rd } ∧
      exec (.offs u1 u2 u3 u4) s = .next { s with resp := some ro }) ∧
    (∀ (u2 u3 : Millis) (k : Int), (u2.toNat : Int) = t2.toNat + k → (u3.toNat : Int) = t3.toNat + k →
      ∃ rk, exec (.delay t1 u2 u3 t4) s = .next { s with resp := some rd } ∧
        exec (.offs t1 u2 u3 t4) s = .next { s with resp := some rk } ∧ resultInt rk = resultInt ro + 2 * k)

/-- Derived (46_transport_port.md section Assembling the exchange record; 93_implementation_defined.md U16: log 12).
TSDEC 24, TSDEC 32 and TSDEC 40 answer the timestamps in the buffer. From them the host assembles the exchange record: T1 as
it is, T2 and T3 plus the UTC offset, and its own T4, for every offset with which T2 and T3 fit an operand. -/
def Obligations.ExchangeRecordFromReply : Prop :=
  ∀ (s : State) (utcOff : Int) (t4 : Millis),
    exec .orig s = .next { s with resp := some (0x00 :: beOctets 8 (Spec.tsToMs s 24)) } ∧
    exec .recv s = .next { s with resp := some (0x00 :: beOctets 8 (Spec.tsToMs s 32)) } ∧
    exec .xmit s = .next { s with resp := some (0x00 :: beOctets 8 (Spec.tsToMs s 40)) } ∧
    (0 ≤ (Spec.tsToMs s 32 : Int) + utcOff → (Spec.tsToMs s 32 : Int) + utcOff < 2 ^ 64 →
      0 ≤ (Spec.tsToMs s 40 : Int) + utcOff → (Spec.tsToMs s 40 : Int) + utcOff < 2 ^ 64 →
      ∃ r, exchangeRecord utcOff (Spec.tsToMs s 24) (Spec.tsToMs s 32) (Spec.tsToMs s 40) t4 = some r ∧
        r.t1.toNat = Spec.tsToMs s 24 ∧ (r.t2.toNat : Int) = Spec.tsToMs s 32 + utcOff ∧
        (r.t3.toNat : Int) = Spec.tsToMs s 40 + utcOff ∧ r.t4 = t4)
end

