-- ==== Sys2Proof/Laws/Memory.lean ====
section
/-! SUPPORT. The packet buffer: read after write, and that every memory operation keeps the canonical form. -/

namespace Sys2Proof.Machine

theorem Memory.get_erase (m : List Host.Cell) (a i : Nat) :
    Memory.get (Memory.erase m a) i = if i = a then Memory.unlisted else Memory.get m i := by
  induction m with
  | nil => simp [Memory.erase, Memory.get]
  | cons c m ih =>
    obtain ⟨b, w⟩ := c
    simp only [Memory.erase] at ih ⊢
    by_cases hb : b = a
    · subst hb
      by_cases hi : i = b
      · simpa [Memory.get, hi] using ih
      · simpa [Memory.get, hi, Ne.symm hi] using ih
    · by_cases hi : b = i
      · subst hi; simp [Memory.get, hb]
      · simpa [Memory.get, hb, hi] using ih

theorem Memory.get_insert (m : List Host.Cell) (a i : Nat) (v : Octet) (h : ∀ c ∈ m, c.1 ≠ a) :
    Memory.get (Memory.insert m a v) i = if i = a then v else Memory.get m i := by
  induction m with
  | nil => simp [Memory.insert, Memory.get, eq_comm]
  | cons c m ih =>
    obtain ⟨b, w⟩ := c
    have hb : b ≠ a := h (b, w) (by simp)
    have ih := ih fun c hc => h c (by simp [hc])
    simp only [Memory.insert]
    split
    · by_cases hi : i = a
      · simp [Memory.get, hi]
      · simp [Memory.get, hi, Ne.symm hi]
    · by_cases hi : b = i
      · subst hi; simp [Memory.get, hb]
      · simp [Memory.get, hi, ih]

/-- Read after write, in any memory: the octet written, and every other octet as before. -/
theorem Memory.get_set (m : List Host.Cell) (a i : Nat) (v : Octet) :
    Memory.get (Memory.set m a v) i = if i = a then v else Memory.get m i := by
  unfold Memory.set
  split
  · next h => rw [Memory.get_erase, h]
  · rw [Memory.get_insert _ _ _ _ (by simp [Memory.erase]), Memory.get_erase]
    split <;> rfl

/-- Read after a write of several octets: the octets written, and every other octet as before. -/
theorem Memory.get_store (m : List Host.Cell) (a i : Nat) (bs : List Octet) :
    Memory.get (Memory.store m a bs) i = if h : a ≤ i ∧ i - a < bs.length then bs[i - a] else Memory.get m i := by
  induction bs generalizing m a with
  | nil => simp [Memory.store]
  | cons b bs ih =>
    rw [Memory.store, ih, Memory.get_set]
    by_cases h1 : a + 1 ≤ i ∧ i - (a + 1) < bs.length
    · have h2 : a ≤ i ∧ i - a < (b :: bs).length := by simp; omega
      have h3 : i - a = (i - (a + 1)) + 1 := by omega
      rw [dif_pos h1, dif_pos h2]
      simp [h3]
    · rw [dif_neg h1]
      by_cases h4 : i = a
      · subst h4; simp
      · rw [if_neg h4, dif_neg]; simp; omega

@[simp] theorem Memory.octets_length (m : List Host.Cell) (a n : Nat) : (Memory.octets m a n).length = n := by
  induction n generalizing a with
  | zero => rfl
  | succ n ih => simp [Memory.octets, ih]

theorem Memory.octets_getElem (m : List Host.Cell) (a n j : Nat) (h : j < (Memory.octets m a n).length) :
    (Memory.octets m a n)[j] = Memory.get m (a + j) := by
  induction n generalizing a j with
  | zero => simp at h
  | succ n ih =>
    cases j with
    | zero => simp [Memory.octets]
    | succ j => simp only [Memory.octets, List.getElem_cons_succ]; rw [ih]; congr 1; omega

theorem Memory.octets_congr {m m' : List Host.Cell} {a n : Nat}
    (h : ∀ i, a ≤ i → i < a + n → Memory.get m i = Memory.get m' i) : Memory.octets m a n = Memory.octets m' a n := by
  induction n generalizing a with
  | zero => rfl
  | succ n ih =>
    rw [Memory.octets, Memory.octets, h a (le_refl a) (by omega), ih fun i h1 h2 => h i (by omega) (by omega)]

/-- What was stored is read back. -/
theorem Memory.octets_store (m : List Host.Cell) (a : Nat) (bs : List Octet) :
    Memory.octets (Memory.store m a bs) a bs.length = bs := by
  apply List.ext_getElem
  · simp
  · intro j h1 h2
    rw [Memory.octets_getElem, Memory.get_store, dif_pos ⟨by omega, by omega⟩]
    simp

theorem Memory.wfFrom_mono {lo lo' : Nat} {m : List Host.Cell} (h : lo ≤ lo') (hm : Memory.wfFrom lo' m = true) :
    Memory.wfFrom lo m = true := by
  cases m with
  | nil => rfl
  | cons c m =>
    obtain ⟨b, w⟩ := c
    simp only [Memory.wfFrom, Bool.and_eq_true, decide_eq_true_eq] at hm ⊢
    exact ⟨⟨⟨by omega, hm.1.1.2⟩, hm.1.2⟩, hm.2⟩

theorem Memory.wfFrom_erase {lo : Nat} {m : List Host.Cell} (a : Nat) (h : Memory.wfFrom lo m = true) :
    Memory.wfFrom lo (Memory.erase m a) = true := by
  induction m generalizing lo with
  | nil => rfl
  | cons c m ih =>
    obtain ⟨b, w⟩ := c
    simp only [Memory.wfFrom, Bool.and_eq_true, decide_eq_true_eq] at h
    obtain ⟨⟨⟨h1, h2⟩, h3⟩, h4⟩ := h
    by_cases hb : b = a
    · simpa [Memory.erase, hb] using Memory.wfFrom_mono (by omega) (ih h4)
    · simpa [Memory.erase, hb, Memory.wfFrom, h1, h2, h3] using ih h4

theorem Memory.wfFrom_insert {lo a : Nat} {m : List Host.Cell} {v : Octet} (hlo : lo ≤ a) (ha : a < Config.pktLen)
    (hv : v ≠ Memory.unlisted) (hm : ∀ c ∈ m, c.1 ≠ a) (h : Memory.wfFrom lo m = true) :
    Memory.wfFrom lo (Memory.insert m a v) = true := by
  induction m generalizing lo with
  | nil => simp [Memory.insert, Memory.wfFrom, hlo, ha, hv]
  | cons c m ih =>
    obtain ⟨b, w⟩ := c
    have hb : b ≠ a := hm (b, w) (by simp)
    simp only [Memory.wfFrom, Bool.and_eq_true, decide_eq_true_eq] at h
    obtain ⟨⟨⟨h1, h2⟩, h3⟩, h4⟩ := h
    simp only [Memory.insert]
    split
    · next hab => simpa [Memory.wfFrom, hlo, ha, hv, h2, h3, h4] using hab
    · simpa [Memory.wfFrom, h1, h2, h3] using ih (by omega) (fun c hc => hm c (by simp [hc])) h4

/-- Writing an octet inside the buffer keeps the canonical form. -/
theorem Memory.wf_set {m : List Host.Cell} {a : Nat} (v : Octet) (ha : a < Config.pktLen) (h : Memory.wf m = true) :
    Memory.wf (Memory.set m a v) = true := by
  unfold Memory.set
  split
  · exact Memory.wfFrom_erase a h
  · next hv => exact Memory.wfFrom_insert (Nat.zero_le a) ha hv (by simp [Memory.erase]) (Memory.wfFrom_erase a h)

/-- Writing octets inside the buffer keeps the canonical form. -/
theorem Memory.wf_store {m : List Host.Cell} {a : Nat} {bs : List Octet} (ha : a + bs.length ≤ Config.pktLen)
    (h : Memory.wf m = true) : Memory.wf (Memory.store m a bs) = true := by
  induction bs generalizing m a with
  | nil => exact h
  | cons b bs ih =>
    simp only [List.length_cons] at ha
    exact ih (by omega) (Memory.wf_set b (by omega) h)

theorem Memory.wf_reset : Memory.wf State.reset.pkt = true := rfl

theorem Memory.get_of_lt {lo i : Nat} {m : List Host.Cell} (h : Memory.wfFrom lo m = true) (hi : i < lo) :
    Memory.get m i = Memory.unlisted := by
  induction m generalizing lo with
  | nil => rfl
  | cons c m ih =>
    obtain ⟨b, w⟩ := c
    simp only [Memory.wfFrom, Bool.and_eq_true, decide_eq_true_eq] at h
    rw [Memory.get, if_neg (by omega)]
    exact ih h.2 (by omega)

/-- Canonical memories that read the same everywhere are the same data. -/
theorem Memory.ext_of_wf {lo : Nat} {m m' : List Host.Cell} (h : Memory.wfFrom lo m = true)
    (h' : Memory.wfFrom lo m' = true) (hg : ∀ i, Memory.get m i = Memory.get m' i) : m = m' := by
  induction m generalizing m' lo with
  | nil =>
    cases m' with
    | nil => rfl
    | cons c' m' =>
      obtain ⟨b, w⟩ := c'
      simp only [Memory.wfFrom, Bool.and_eq_true, bne_iff_ne] at h'
      exact absurd (by simpa [Memory.get] using (hg b).symm) h'.1.2
  | cons c m ih =>
    obtain ⟨a, v⟩ := c
    simp only [Memory.wfFrom, Bool.and_eq_true, decide_eq_true_eq, bne_iff_ne] at h
    cases m' with
    | nil => exact absurd (by simpa [Memory.get] using hg a) h.1.2
    | cons c' m' =>
      obtain ⟨b, w⟩ := c'
      simp only [Memory.wfFrom, Bool.and_eq_true, decide_eq_true_eq, bne_iff_ne] at h'
      have hab : a = b := by
        rcases Nat.lt_trichotomy a b with hlt | heq | hgt
        · have := hg a
          rw [Memory.get, if_pos rfl, Memory.get, if_neg (by omega), Memory.get_of_lt h'.2 (by omega)] at this
          exact absurd this h.1.2
        · exact heq
        · have := hg b
          rw [Memory.get, if_neg (by omega), Memory.get_of_lt h.2 (by omega), Memory.get, if_pos rfl] at this
          exact absurd this.symm h'.1.2
      subst hab
      have hvw : v = w := by simpa [Memory.get] using hg a
      subst hvw
      rw [ih h.2 h'.2 fun i => ?_]
      by_cases hi : a = i
      · subst hi; rw [Memory.get_of_lt h.2 (by omega), Memory.get_of_lt h'.2 (by omega)]
      · simpa [Memory.get, hi] using hg i

end Sys2Proof.Machine
end

