-- ==== Sys2Proof/Laws/Octets.lean ====
section
/-! SUPPORT. Big-endian octet strings: lengths, the round trip between a number and its octets, and pieces of a
concatenation. -/

namespace Sys2Proof

@[simp] theorem beOctets_length (n v : Nat) : (beOctets n v).length = n := by
  induction n with
  | zero => rfl
  | succ n ih => simp [beOctets, ih]

theorem beValue_lt (bs : List Octet) : beValue bs < 256 ^ bs.length := by
  induction bs with
  | nil => simp [beValue]
  | cons b bs ih =>
    have hb : b.toNat < 256 := b.isLt
    have : b.toNat * 256 ^ bs.length + 256 ^ bs.length ≤ 256 * 256 ^ bs.length := by
      rw [← Nat.succ_mul]; exact Nat.mul_le_mul_right _ hb
    simp only [beValue, List.length_cons, Nat.pow_succ 256]
    omega

/-- Reading the octets of a number gives it modulo their range. -/
theorem beValue_beOctets (n v : Nat) : beValue (beOctets n v) = v % 256 ^ n := by
  induction n with
  | zero => simp [beValue, beOctets, Nat.mod_one]
  | succ n ih =>
    have h : v % (256 ^ n * 256) = v % 256 ^ n + 256 ^ n * (v / 256 ^ n % 256) := Nat.mod_mul
    rw [beOctets, beValue, ih, beOctets_length, BitVec.toNat_ofNat, Nat.pow_succ 256 n, h, Nat.mul_comm, Nat.add_comm]

/-- A number that fits is read back from its octets. -/
theorem beValue_beOctets_of_lt {n v : Nat} (h : v < 256 ^ n) : beValue (beOctets n v) = v := by
  rw [beValue_beOctets, Nat.mod_eq_of_lt h]

/-- An octet string is the octets of its value. -/
theorem beOctets_beValue (bs : List Octet) : beOctets bs.length (beValue bs) = bs := by
  have aux : ∀ (n v w : Nat), beOctets n (w * 256 ^ n + v) = beOctets n v := by
    intro n
    induction n with
    | zero => intros; rfl
    | succ n ih =>
      intro v w
      have h1 : w * 256 ^ (n + 1) + v = w * 256 * 256 ^ n + v := by rw [Nat.pow_succ]; ring
      rw [beOctets, beOctets, h1, ih]
      congr 1
      rw [Nat.add_comm, Nat.add_mul_div_right _ _ (by positivity)]
      apply BitVec.eq_of_toNat_eq
      simp [Nat.add_mul_mod_self_right]
  induction bs with
  | nil => rfl
  | cons b bs ih =>
    rw [List.length_cons, beOctets, beValue, aux, ih]
    congr 1
    rw [Nat.add_comm, Nat.add_mul_div_right _ _ (by positivity), Nat.div_eq_of_lt (beValue_lt bs)]
    simp

@[simp] theorem beValue_singleton (b : Octet) : beValue [b] = b.toNat := by simp [beValue]

@[simp] theorem beOctets_one (v : Nat) : beOctets 1 v = [BitVec.ofNat 8 v] := by simp [beOctets]

theorem octetsAt_length {c : List Octet} {start len : Nat} (h : start + len ≤ c.length) :
    (octetsAt c start len).length = len := by
  simp only [octetsAt, List.length_take, List.length_drop]; omega

/-- The millisecond operand whose octets stand at its position is read back. -/
theorem millisAt_of_octetsAt {c : List Octet} {start : Nat} {t : Millis}
    (h : octetsAt c start 8 = beOctets 8 t.toNat) : millisAt c start = t := by
  rw [millisAt, h, beValue_beOctets_of_lt (by simpa using t.isLt)]
  simp

end Sys2Proof
end

