-- ==== Sys2Proof/Laws/State.lean ====
section
/-! SUPPORT. One lemma per field per update of State, and what the state after reset holds. -/

namespace Sys2Proof.Machine

/-! Each is true by rfl. The proof is written (rfl) so that simp rewrites with it as an equation: used as a definitional
unfolding, the kernel would compare whole packet buffers. -/

@[simp] theorem State.setPkt_pkt (s : State) (v : List Host.Cell) : (s.setPkt v).pkt = v := (rfl)
@[simp] theorem State.setPkt_rxlen (s : State) (v : List Host.Cell) : (s.setPkt v).rxlen = s.rxlen := (rfl)
@[simp] theorem State.setPkt_port (s : State) (v : List Host.Cell) : (s.setPkt v).port = s.port := (rfl)
@[simp] theorem State.setPkt_resp (s : State) (v : List Host.Cell) : (s.setPkt v).resp = s.resp := (rfl)

@[simp] theorem State.setRxlen_pkt (s : State) (v : Count) : (s.setRxlen v).pkt = s.pkt := (rfl)
@[simp] theorem State.setRxlen_rxlen (s : State) (v : Count) : (s.setRxlen v).rxlen = v := (rfl)
@[simp] theorem State.setRxlen_port (s : State) (v : Count) : (s.setRxlen v).port = s.port := (rfl)
@[simp] theorem State.setRxlen_resp (s : State) (v : Count) : (s.setRxlen v).resp = s.resp := (rfl)

@[simp] theorem State.setPort_pkt (s : State) (v : List HostAction) : (s.setPort v).pkt = s.pkt := (rfl)
@[simp] theorem State.setPort_rxlen (s : State) (v : List HostAction) : (s.setPort v).rxlen = s.rxlen := (rfl)
@[simp] theorem State.setPort_port (s : State) (v : List HostAction) : (s.setPort v).port = v := (rfl)
@[simp] theorem State.setPort_resp (s : State) (v : List HostAction) : (s.setPort v).resp = s.resp := (rfl)

@[simp] theorem State.setResp_pkt (s : State) (v : Option (List Octet)) : (s.setResp v).pkt = s.pkt := (rfl)
@[simp] theorem State.setResp_rxlen (s : State) (v : Option (List Octet)) : (s.setResp v).rxlen = s.rxlen := (rfl)
@[simp] theorem State.setResp_port (s : State) (v : Option (List Octet)) : (s.setResp v).port = s.port := (rfl)
@[simp] theorem State.setResp_resp (s : State) (v : Option (List Octet)) : (s.setResp v).resp = v := (rfl)

@[simp] theorem State.octet_setRxlen (s : State) (v : Count) (a : Nat) : (s.setRxlen v).octet a = s.octet a := (rfl)
@[simp] theorem State.octet_setPort (s : State) (v : List HostAction) (a : Nat) : (s.setPort v).octet a = s.octet a := (rfl)
@[simp] theorem State.octet_setResp (s : State) (v : Option (List Octet)) (a : Nat) : (s.setResp v).octet a = s.octet a := (rfl)

@[simp] theorem State.setPkt_setPkt (s : State) (m m' : List Host.Cell) : (s.setPkt m).setPkt m' = s.setPkt m' := (rfl)
@[simp] theorem State.setResp_setResp (s : State) (r r' : Option (List Octet)) :
    (s.setResp r).setResp r' = s.setResp r' := (rfl)

@[simp] theorem State.reset_pkt : State.reset.pkt = [] := rfl
@[simp] theorem State.reset_rxlen : State.reset.rxlen = 0 := rfl
@[simp] theorem State.reset_port : State.reset.port = [] := rfl
@[simp] theorem State.reset_resp : State.reset.resp = none := rfl
@[simp] theorem State.octet_reset (a : Nat) : State.reset.octet a = 0 := rfl

@[simp] theorem acceptAction_pkt (s : State) : (acceptAction s).pkt = s.pkt := rfl
@[simp] theorem acceptAction_rxlen (s : State) : (acceptAction s).rxlen = s.rxlen := rfl
@[simp] theorem acceptAction_port (s : State) : (acceptAction s).port = s.port.tail := rfl
@[simp] theorem acceptAction_resp (s : State) : (acceptAction s).resp = s.resp := rfl
@[simp] theorem octet_acceptAction (s : State) (a : Nat) : (acceptAction s).octet a = s.octet a := rfl

@[simp] theorem resetBlock_pkt (s : State) : (resetBlock s).pkt = [] := rfl
@[simp] theorem resetBlock_rxlen (s : State) : (resetBlock s).rxlen = 0 := rfl
@[simp] theorem resetBlock_port (s : State) : (resetBlock s).port = s.port.tail := rfl
@[simp] theorem resetBlock_resp (s : State) : (resetBlock s).resp = none := rfl

@[simp] theorem State.withFetchWord_port (s : State) (nbits w : Nat) :
    (s.withFetchWord nbits w).port = .command (tableOctets nbits w) :: s.port := rfl

end Sys2Proof.Machine
end

