-- ==== Sys2Proof/Laws/Ops.lean ====
section
/-! SUPPORT. What each shared operation can do, said once: accesses inside the buffer, the two checked operand forms, the
timestamp accesses, and the ways a command ends. -/

namespace Sys2Proof.Machine

/-! The ways a command ends -/

/-- An answer is a next state that differs in the response port alone. -/
theorem answer_eq (s : State) (r : List Octet) : answer s r = .next (s.setResp (some (okStatus :: r))) := rfl

/-- A command fault is a next state that differs in the response port alone. -/
theorem raise_eq (s : State) (f : CommandFault) : raise s f = .next (s.setResp (some [faultStatus f])) := rfl

theorem eq_of_answer_eq_next {s t : State} {r : List Octet} (h : answer s r = .next t) :
    t = s.setResp (some (okStatus :: r)) := by
  rw [answer_eq] at h; exact (Host.Outcome.next.inj h).symm

theorem eq_of_raise_eq_next {s t : State} {f : CommandFault} (h : raise s f = .next t) :
    t = s.setResp (some [faultStatus f]) := by
  rw [raise_eq] at h; exact (Host.Outcome.next.inj h).symm

/-! Accesses inside the buffer -/

theorem readOctets_of_le {s : State} {a n : Nat} {k : List Octet → Result} (h : a + n ≤ 48) :
    readOctets s a n k = k (Memory.octets s.pkt a n) := if_pos h

theorem memRead_of_le {s : State} {a n : Nat} {k : Nat → Result} (h : a + n ≤ 48) :
    memRead s a n k = k (beValue (Memory.octets s.pkt a n)) := if_pos h

theorem writeOctets_of_le {s : State} {a : Nat} {bs : List Octet} {k : State → Result} (h : a + bs.length ≤ 48) :
    writeOctets s a bs k = k (s.setPkt (Memory.store s.pkt a bs)) := if_pos h

theorem memWrite_of_le {s : State} {a n v : Nat} {k : State → Result} (h : a + n ≤ 48) :
    memWrite s a n v k = k (s.setPkt (Memory.store s.pkt a (beOctets n v))) :=
  writeOctets_of_le (by simpa using h)

/-- Reading one octet reads `PKT[a]`. -/
theorem memRead_one {s : State} {a : Nat} {k : Nat → Result} (h : a < 48) :
    memRead s a 1 k = k (s.octet a).toNat := by
  rw [memRead_of_le (by omega)]; simp [Memory.octets, State.octet]

/-! The timestamp accesses -/

theorem readTimestamp_of_le {s : State} {a : Nat} {k : Nat → Result} (h : a ≤ 40) :
    readTimestamp s a k =
      k (tsToMs (beValue (Memory.octets s.pkt a 4)) (beValue (Memory.octets s.pkt (a + 4) 4))) := by
  rw [readTimestamp, memRead_of_le (by omega), memRead_of_le (by omega)]

theorem writeTimestamp_of_le {s : State} {a ms : Nat} {k : State → Result} (h : a ≤ 40) :
    writeTimestamp s a ms k =
      k (s.setPkt (Memory.store (Memory.store s.pkt a (beOctets 4 (msToSeconds ms))) (a + 4)
        (beOctets 4 (msToFraction ms)))) := by
  rw [writeTimestamp, memWrite_of_le (by omega), memWrite_of_le (by omega)]; rfl

/-! The checked operand forms -/

theorem withOffset_of_le {s : State} {off : Octet} {k : Nat → Result} (h : off.toNat ≤ 40) :
    withOffset s off k = k off.toNat := if_neg (by simpa [maxOffset] using h)

theorem withOffset_of_gt {s : State} {off : Octet} {k : Nat → Result} (h : 40 < off.toNat) :
    withOffset s off k = raise s .errBounds := if_pos h

theorem withEncodable_of_lt {s : State} {ms : Millis} {k : Nat → Result} (h : ms.toNat < 4294967296000) :
    withEncodable s ms k = k ms.toNat := if_neg (by simpa [millisLimit] using h)

theorem withEncodable_of_le {s : State} {ms : Millis} {k : Nat → Result} (h : 4294967296000 ≤ ms.toNat) :
    withEncodable s ms k = raise s .errRange := if_pos h

/-! The storing commands, as updates of the state -/

/-- The packet buffer after INIT (40_request_init.md R60). -/
def Memory.request (m : List Host.Cell) (ms : Nat) : List Host.Cell :=
  Memory.store (Memory.store (Memory.store (Memory.store m 0 (List.replicate Config.pktLen 0x00)) 0 [requestHeader])
    transmitOffset (beOctets 4 (msToSeconds ms))) (transmitOffset + 4) (beOctets 4 (msToFraction ms))

/-- The packet buffer after TSENC (43_timestamp.md R96). -/
def Memory.timestamp (m : List Host.Cell) (a ms : Nat) : List Host.Cell :=
  Memory.store (Memory.store m a (beOctets 4 (msToSeconds ms))) (a + 4) (beOctets 4 (msToFraction ms))

theorem execInit_of_lt {s : State} {now : Millis} (h : now.toNat < 4294967296000) :
    execInit now s = .next (((s.setPkt (Memory.request s.pkt now.toNat)).setRxlen 0).setResp (some [okStatus])) := by
  rw [execInit, withEncodable_of_lt h, writeOctets_of_le (by simp [Config.pktLen]), writeOctets_of_le (by simp),
    writeTimestamp_of_le (by simp [transmitOffset]), answer_eq]
  simp only [State.setPkt_pkt, State.setPkt_setPkt, Memory.request]

theorem execTsenc_of_lt {s : State} {off : Octet} {ms : Millis} (h : off.toNat ≤ 40) (h' : ms.toNat < 4294967296000) :
    execTsenc off ms s =
      .next ((s.setPkt (Memory.timestamp s.pkt off.toNat ms.toNat)).setResp (some [okStatus])) := by
  rw [execTsenc, withOffset_of_le h, withEncodable_of_lt h', writeTimestamp_of_le h, answer_eq, Memory.timestamp]

theorem execRxload_eq (n : Count) (data : List Octet) (s : State) :
    execRxload n data s = .next (((s.setPkt (Memory.store s.pkt 0 (data.take (min n.toNat 48)))).setRxlen n).setResp
      (some [okStatus])) := by
  rw [execRxload, writeOctets_of_le (by simp [Config.pktLen]), answer_eq, Config.pktLen]

/-! Octets of a stored buffer -/

@[simp] theorem State.octet_setPkt (s : State) (m : List Host.Cell) (a : Nat) :
    (s.setPkt m).octet a = Memory.get m a := (rfl)

theorem beValue_octets_lt (m : List Host.Cell) (a n : Nat) : beValue (Memory.octets m a n) < 256 ^ n := by
  have h := beValue_lt (Memory.octets m a n)
  rwa [Memory.octets_length] at h

/-- The seconds of an encodable count fit 32 bits (43_timestamp.md R96). -/
theorem msToSeconds_lt {ms : Nat} (h : ms < 4294967296000) : msToSeconds ms < 256 ^ 4 := by
  unfold msToSeconds; omega

/-- The fraction of any count fits 32 bits (43_timestamp.md R96). -/
theorem msToFraction_lt (ms : Nat) : msToFraction ms < 256 ^ 4 := by unfold msToFraction; omega

end Sys2Proof.Machine
end

