-- ==== Sys2Proof/Laws/PerInstr.lean ====
section
/-! SUPPORT. Statements for all commands, one lemma per constructor: the length of a well-formed command's octets is the
one its opcode requires (30_encoding.md R41). -/

namespace Sys2Proof.Laws.EncodeLength

/-- The encoding of a well-formed command has the length of its opcode's format. -/
def Statement (i : Instr) : Prop := i.wellFormed = true → (encode i).length = i.opcode.format.length

theorem init (now : Millis) : Statement (.init now) := fun _ => by simp [encode, Instr.operandOctets, Instr.opcode, Opcode.format, Format.length]
theorem li : Statement .li := fun _ => rfl
theorem vn : Statement .vn := fun _ => rfl
theorem mode : Statement .mode := fun _ => rfl
theorem strat : Statement .strat := fun _ => rfl
theorem poll : Statement .poll := fun _ => rfl
theorem prec : Statement .prec := fun _ => rfl
theorem rdel : Statement .rdel := fun _ => rfl
theorem rdisp : Statement .rdisp := fun _ => rfl
theorem refid : Statement .refid := fun _ => rfl
theorem tsdec (off : Octet) : Statement (.tsdec off) := fun _ => rfl
theorem ms2cal (ms : Millis) : Statement (.ms2cal ms) := fun _ => by simp [encode, Instr.operandOctets, Instr.opcode, Opcode.format, Format.length]
theorem tsenc (off : Octet) (ms : Millis) : Statement (.tsenc off ms) := fun _ => by simp [encode, Instr.operandOctets, Instr.opcode, Opcode.format, Format.length]
theorem valid : Statement .valid := fun _ => rfl
theorem delay (t1 t2 t3 t4 : Millis) : Statement (.delay t1 t2 t3 t4) := fun _ => by simp [encode, Instr.operandOctets, Instr.opcode, Opcode.format, Format.length]
theorem offs (t1 t2 t3 t4 : Millis) : Statement (.offs t1 t2 t3 t4) := fun _ => by simp [encode, Instr.operandOctets, Instr.opcode, Opcode.format, Format.length]
theorem rxload (n : Count) (data : List Octet) : Statement (.rxload n data) := fun h => by
  have hd : data.length = 48 := by simpa [Instr.wellFormed, Config.pktLen] using h
  simp [encode, Instr.operandOctets, Instr.opcode, Opcode.format, Format.length, hd]
theorem txread : Statement .txread := fun _ => rfl

end Sys2Proof.Laws.EncodeLength
end

