-- ==== Sys2Proof/Tests/Slice0.lean ====
section
/-! SUPPORT. Tests against the spec's own vectors (95_test_vectors.md), the encoding's words, the smoke test of WellFormed,
and a witness for the hypotheses of each statement. -/

namespace Sys2Proof.Tests

open Sys2Proof Sys2Proof.Machine

/-! Small states -/

/-- The next state, where there is one. -/
def nextOf : Result → Option State
  | .next t => some t
  | _ => none

/-- The response of the next state. -/
def respOf (o : Result) : Option (List Octet) := (nextOf o).bind State.resp

/-- Octets of the next state's buffer. -/
def octetsOf (o : Result) (a n : Nat) : Option (List Octet) := (nextOf o).map fun t => Memory.octets t.pkt a n

/-- A block whose buffer holds these octets from offset `a`, and this RXLEN. -/
def holding (a : Nat) (bs : List Octet) (n : Count) : State :=
  { State.reset with pkt := Memory.store [] a bs, rxlen := n }

/-- A block with one command presented. -/
def presented (c : List Octet) : State := { State.reset with port := [.command c] }

/-- The data operand of 95_test_vectors.md 2.10. -/
def data210 : List Octet := (List.range 48).map fun i => BitVec.ofNat 8 (0xA0 + i % 16)

/-! WellFormed: the one check refuses a term that breaks it -/

theorem test_wellFormed_rxload_long : (Instr.rxload 48 (List.replicate 48 0x00)).wellFormed = true := by decide
theorem test_wellFormed_refuses_47_octets : (Instr.rxload 48 (List.replicate 47 0x00)).wellFormed = false := by decide
theorem test_wellFormed_refuses_49_octets : (Instr.rxload 48 (List.replicate 49 0x00)).wellFormed = false := by decide

/-! Decoding: words written out from 30_encoding.md R41 to R43, one for each constructor -/

theorem test_decode_init :
    decode [0x01, 0x00, 0x00, 0x03, 0x8F, 0x14, 0x50, 0x18, 0x00] = .ok (.init 3913056000000) := rfl
theorem test_decode_li : decode [0x02] = .ok .li := rfl
theorem test_decode_vn : decode [0x03] = .ok .vn := rfl
theorem test_decode_mode : decode [0x04] = .ok .mode := rfl
theorem test_decode_strat : decode [0x05] = .ok .strat := rfl
theorem test_decode_poll : decode [0x06] = .ok .poll := rfl
theorem test_decode_prec : decode [0x07] = .ok .prec := rfl
theorem test_decode_rdel : decode [0x08] = .ok .rdel := rfl
theorem test_decode_rdisp : decode [0x09] = .ok .rdisp := rfl
theorem test_decode_refid : decode [0x0A] = .ok .refid := rfl
theorem test_decode_tsdec : decode [0x0B, 0x28] = .ok (.tsdec 40) := rfl
theorem test_decode_ms2cal :
    decode [0x0C, 0x00, 0x00, 0x03, 0x8F, 0x14, 0x50, 0x19, 0x2D] = .ok (.ms2cal 3913056000301) := rfl
theorem test_decode_tsenc :
    decode [0x0D, 0x29, 0x00, 0x00, 0x03, 0xE8, 0x00, 0x00, 0x00, 0x00] = .ok (.tsenc 41 4294967296000) := rfl
theorem test_decode_valid : decode [0x0E] = .ok .valid := rfl
/-- The 33-octet command of 95_test_vectors.md 2.9. -/
theorem test_decode_delay :
    decode [0x10, 0x00, 0x00, 0x00, 0x00, 0x00, 0x00, 0x00, 0x00, 0x00, 0x00, 0x00, 0x00, 0x00, 0x00, 0x03, 0xE8,
      0x00, 0x00, 0x00, 0x00, 0x00, 0x00, 0x04, 0xB0, 0x00, 0x00, 0x00, 0x00, 0x00, 0x00, 0x09, 0xC4]
      = .ok (.delay 0 1000 1200 2500) := rfl
theorem test_decode_offs :
    decode [0x11, 0x80, 0x00, 0x00, 0x00, 0x00, 0x00, 0x00, 0x00, 0x00, 0x00, 0x00, 0x00, 0x00, 0x00, 0x00, 0x02,
      0x00, 0x00, 0x00, 0x00, 0x00, 0x00, 0x00, 0x03, 0x00, 0x00, 0x00, 0x00, 0x00, 0x00, 0x00, 0x04]
      = .ok (.offs 0x8000000000000000 2 3 4) := rfl
theorem test_decode_rxload : decode (0x20 :: 0x01 :: 0x30 :: data210) = .ok (.rxload 0x0130 data210) := rfl
theorem test_decode_txread : decode [0x21] = .ok .txread := rfl

/-! The decoder's faults (95_test_vectors.md 2.11), by name -/

theorem test_decode_empty : decode [] = .error .errLength := rfl
theorem test_decode_opcode_before_length : decode [0x0F, 0x00] = .error .errOpcode := rfl
theorem test_decode_illegal_opcodes : ∀ op ∈ [(0x00 : Octet), 0x0F, 0x12, 0x1F, 0x22, 0xFF],
    Opcode.ofOctet op = none := by decide
theorem test_decode_legal_neighbours : ∀ op ∈ [(0x01 : Octet), 0x0E, 0x10, 0x11, 0x20, 0x21],
    Opcode.ofOctet op ≠ none := by decide
theorem test_decode_li_long : decode [0x02, 0x00] = .error .errLength := rfl
theorem test_decode_tsdec_short : decode [0x0B] = .error .errLength := rfl
theorem test_decode_rxload_short : decode (0x20 :: List.replicate 49 0x00) = .error .errLength := rfl

/-! Table words: the whole command as one number, its first octet the most significant -/

theorem test_table_li : decodeTableWord 8 0x02 = some .li := by decide
theorem test_table_tsdec : decodeTableWord 16 0x0B28 = some (.tsdec 40) := by decide
theorem test_table_init : decodeTableWord 72 0x010000000000000007 = some (.init 7) := by decide
theorem test_table_short_number : decodeTableWord 8 0x10 = some (.delay 0 0 0 0) := by decide
theorem test_fetch_word_runs_first : respOf (step (State.reset.withFetchWord 8 0x02)) = some [0x00, 0x00] := by decide

/-! The commands (vectors of 95_test_vectors.md section 2 and programs P1 to P4) -/

/-- Vector 2.1, now = 3913056000123. -/
theorem test_init_timestamp :
    octetsOf (exec (.init 3913056000123) (holding 30 [0xFF, 0xFF] 48)) 0 48 =
      some (0x1B :: List.replicate 39 0x00 ++ [0xE9, 0x3C, 0x7F, 0x00, 0x1F, 0x7C, 0xED, 0x91]) := by decide
/-- Vector 2.1, the first count out of range: nothing changes but the response. -/
theorem test_init_range : nextOf (exec (.init 4294967296000) (holding 30 [0xFF] 48)) =
    some { holding 30 [0xFF] 48 with resp := some [0x04] } := by decide
/-- Vector 2.2, PKT[0] = 0xE4. -/
theorem test_li_alarm : respOf (exec .li (holding 0 [0xE4] 0)) = some [0x00, 0x03] := by decide
theorem test_vn_four : respOf (exec .vn (holding 0 [0xE4] 0)) = some [0x00, 0x04] := by decide
theorem test_mode_server : respOf (exec .mode (holding 0 [0xE4] 0)) = some [0x00, 0x04] := by decide
/-- Vector 2.2, PKT[0] = 0xDE, Mode field 6. -/
theorem test_mode_unknown : respOf (exec .mode (holding 0 [0xDE] 0)) = some [0x00, 0x00] := by decide
/-- Vectors 2.2, the boundary 15|16. -/
theorem test_strat_secondary : respOf (exec .strat (holding 1 [0x0F] 0)) = some [0x00, 0x02] := by decide
theorem test_strat_reserved : respOf (exec .strat (holding 1 [0x10] 0)) = some [0x00, 0x03] := by decide
theorem test_poll_minus_one : respOf (exec .poll (holding 2 [0xFF] 0)) = some [0x00, 0xFF] := by decide
theorem test_prec_ec : respOf (exec .prec (holding 3 [0xEC] 0)) = some [0x00, 0xEC] := by decide
/-- Vector 2.3, raw 0x12345678. -/
theorem test_rdel : respOf (exec .rdel (holding 4 [0x12, 0x34, 0x56, 0x78] 0)) =
    some [0x00, 0x08, 0xE3, 0x8E, 0x38, 0x98] := by decide
/-- Vector 2.3, raw 0x80000000: unsigned. -/
theorem test_rdisp : respOf (exec .rdisp (holding 8 [0x80, 0x00, 0x00, 0x00] 0)) =
    some [0x00, 0x3E, 0x80, 0x00, 0x00, 0x00] := by decide
/-- The buffer of vectors 2.4. -/
def buffer24 (o0 o1 : Octet) : State :=
  holding 0 (o0 :: o1 :: List.replicate 10 0x00 ++ [0x4C, 0x4F, 0x43, 0x4C, 0xE9, 0x3C, 0x62, 0xE0, 0x80]) 0
/-- Vector 2.4, PKT[0] = 0x24, stratum 15: TSTAMP over octets 12..19. -/
theorem test_refid_tstamp : respOf (exec .refid (buffer24 0x24 0x0F)) =
    some [0x00, 0x02, 0x00, 0x00, 0x01, 0x2A, 0x15, 0x9E, 0xE4, 0x6F] := by decide
/-- Vector 2.4, PKT[0] = 0x1C, stratum 2: IPV4. -/
theorem test_refid_ipv4 : respOf (exec .refid (buffer24 0x1C 0x02)) =
    some [0x00, 0x01, 0x00, 0x00, 0x00, 0x00, 0x4C, 0x4F, 0x43, 0x4C] := by decide
/-- Vector 2.5: the largest fraction gives 999, at the last legal offset. -/
theorem test_tsdec_truncates : respOf (exec (.tsdec 40) (holding 44 [0xFF, 0xFF, 0xFF, 0xFF] 0)) =
    some [0x00, 0x00, 0x00, 0x00, 0x00, 0x00, 0x00, 0x03, 0xE7] := by decide
/-- Vector 2.5: the first illegal offset. -/
theorem test_tsdec_bounds : nextOf (exec (.tsdec 41) State.reset) = some { State.reset with resp := some [0x03] } := by
  decide
/-- Vector 2.7, the last instant TSDEC can produce. -/
theorem test_ms2cal_2036 : respOf (exec (.ms2cal 4294967295999) State.reset) = some [0x00, 0x00, 0x00, 0x03, 0xE7, 0xFF,
    0xFF, 0xFF, 0xFF, 0x00, 0x00, 0x07, 0xF4, 0x02, 0x07, 0x06, 0x1C, 0x0F, 0x03, 0xE7] := by decide
/-- Vector 2.7, the largest operand. -/
theorem test_ms2cal_largest : (respOf (exec (.ms2cal 18446744073709551615) State.reset)).map (List.drop 9) =
    some [0x22, 0xD7, 0x9D, 0xAD, 0x04, 0x03, 0x0E, 0x19, 0x33, 0x02, 0x67] := by decide
/-- Vector 2.6: ms = 999 at an unaligned offset, its neighbours kept. -/
theorem test_tsenc_neighbours : octetsOf (exec (.tsenc 13 999) (holding 12 (List.replicate 10 0xAA) 0)) 12 10 =
    some [0xAA, 0x00, 0x00, 0x00, 0x00, 0xFF, 0xBE, 0x76, 0xC8, 0xAA] := by decide
/-- Vector 2.6: ERR_BOUNDS goes before ERR_RANGE. -/
theorem test_tsenc_priority : respOf (exec (.tsenc 41 4294967296000) State.reset) = some [0x03] := by decide
/-- Vector 2.8: 48 octets with Mode 4, and 47. -/
theorem test_valid_48 : respOf (exec .valid (holding 0 [0x1C] 48)) = some [0x00, 0x01] := by decide
theorem test_valid_47 : respOf (exec .valid (holding 0 [0x1C] 47)) = some [0x00, 0x00] := by decide
/-- Vectors 2.9. -/
theorem test_delay : respOf (exec (.delay 0 1000 1200 2500) State.reset) =
    some [0x00, 0x00, 0x00, 0x00, 0x00, 0x00, 0x00, 0x00, 0x08, 0xFC] := by decide
theorem test_delay_extreme : respOf (exec (.delay 18446744073709551615 0 18446744073709551615 0) State.reset) =
    some [0x00, 0xFE, 0x00, 0x00, 0x00, 0x00, 0x00, 0x00, 0x00, 0x02] := by decide
theorem test_offs : respOf (exec (.offs 0 1000 1200 2500) State.reset) =
    some [0x00, 0xFF, 0xFF, 0xFF, 0xFF, 0xFF, 0xFF, 0xFF, 0xFE, 0xD4] := by decide
theorem test_offs_odd : respOf (exec (.offs 1 0 0 0) State.reset) = some (0x00 :: List.replicate 9 0xFF) := by decide
/-- Vectors 2.10: 47 octets leave octet 47 stale. -/
theorem test_rxload_47 : octetsOf (exec (.rxload 47 data210) (holding 46 [0xED, 0x91] 0)) 45 3 =
    some [0xAD, 0xAE, 0x91] := by decide
theorem test_rxload_65535 : (nextOf (exec (.rxload 65535 data210) State.reset)).map
    (fun t => (t.rxlen, t.octet 0, t.octet 47)) = some (65535, 0xA0, 0xAF) := by decide
theorem test_txread : respOf (exec .txread (holding 0 data210 0)) = some (0x00 :: data210) := by decide

/-! The host's side (95_test_vectors.md 2.2, 2.3, 2.7, program P2) -/

theorem test_secondsOf_fa : secondsOf [0x00, 0xFA] = mkRat 1 64 := by decide
theorem test_rootMillisOf_half_second : rootMillisOf [0x00, 0x00, 0x00, 0x3E, 0x80, 0x00] = 500 := by decide
theorem test_offsetMillisOf : offsetMillisOf [0x00, 0x00, 0x00, 0x00, 0x00, 0x00, 0x00, 0x00, 0x00, 0x85] = mkRat 133 2 := by
  decide
theorem test_msFromCivil_2024 : msFromCivil ⟨2024, 1, 1, 0, 0, 0, 500⟩ = 3913056000500 := by decide
theorem test_exchangeRecord : exchangeRecord 7200000 3913056000122 3913048800300 3913048800301 3913056000346 =
    some ⟨3913056000122, 3913056000300, 3913056000301, 3913056000346⟩ := by decide
theorem test_exchangeRecord_negative : exchangeRecord (-1) 0 0 0 0 = none := by decide
theorem test_text_rxload : commandOfLine ("RXLOAD 2, 1c".toList ++ List.replicate 94 '0') =
    some (.rxload 2 (0x1C :: List.replicate 47 0x00)) := by decide
theorem test_text_too_wide : commandOfLine "TSDEC 256".toList = none := by decide

/-! Steps -/

/-- Program P4, step 10: the fault's response, the command taken, nothing else. -/
theorem test_step_fault : nextOf (step (presented [0x0D, 0x29, 0x00, 0x00, 0x03, 0xE8, 0x00, 0x00, 0x00, 0x00])) =
    some { State.reset with resp := some [0x03] } := by decide
theorem test_step_reset : nextOf (step { holding 0 [0x1B] 7 with port := [.reset, .command [0x02]] }) =
    some { State.reset with port := [.command [0x02]] } := by decide

/-! Witnesses: for each statement with hypotheses, states and operands that meet them -/

theorem witness_reset : ∃ (s : State) (rest : List HostAction), s.port = .reset :: rest :=
  ⟨{ State.reset with port := [.reset, .command [0x02]] }, _, rfl⟩
theorem witness_offsets : (40 : Octet).toNat ≤ 40 ∧ 40 < (41 : Octet).toNat := by decide
theorem witness_tsenc : (40 : Octet).toNat ≤ 40 ∧ (4294967295999 : Millis).toNat < Spec.limit ∧ (40 : Octet).toNat ≤ 40 ∧
    Spec.limit ≤ (4294967296000 : Millis).toNat := by decide
theorem witness_counts : (4294967295999 : Millis).toNat < Spec.limit ∧ Spec.limit ≤ (4294967296000 : Millis).toNat := by
  decide
theorem witness_step : (presented [0x02]).port = .command [0x02] :: [] ∧ decode [0x02] = .ok .li := ⟨rfl, rfl⟩
theorem witness_idle : State.reset.port = [] := rfl
theorem witness_wellFormed : (Instr.rxload 48 data210).wellFormed = true := by decide
theorem witness_decodes : decode [0x0B, 0x28] = .ok (.tsdec 40) := rfl
theorem witness_illegal : ∀ op ∈ [(0x00 : Octet), 0x0F, 0x12, 0x1F, 0x22, 0xFF],
    op = 0x00 ∨ op = 0x0F ∨ (0x12 ≤ op.toNat ∧ op.toNat ≤ 0x1F) ∨ 0x22 ≤ op.toNat := by decide
theorem witness_illegal_presented : (presented [0x12]).port = .command (0x12 :: []) :: [] ∧ ((0x12 : Octet) = 0x00 ∨
    (0x12 : Octet) = 0x0F ∨ (0x12 ≤ (0x12 : Octet).toNat ∧ (0x12 : Octet).toNat ≤ 0x1F) ∨ 0x22 ≤ (0x12 : Octet).toNat) := by
  decide
theorem witness_legal : ∀ op ∈ [(0x01 : Octet), 0x0E, 0x10, 0x11, 0x20, 0x21],
    ¬ (op = 0x00 ∨ op = 0x0F ∨ (0x12 ≤ op.toNat ∧ op.toNat ≤ 0x1F) ∨ 0x22 ≤ op.toNat) := by decide
theorem witness_legal_length : Spec.opcodeLengths.lookup (0x0B : Octet).toNat = some 2 ∧ [(0x29 : Octet)].length + 1 = 2 := by
  decide
/-- The hypotheses of OnlyLength, for the opcode and length of every command. -/
theorem witness_onlyLength : ∀ row ∈ Spec.opcodeLengths,
    ([BitVec.ofNat 8 row.1, 0x00, 0x00] : List Octet).head? = some (BitVec.ofNat 8 row.1) ∧
    ([BitVec.ofNat 8 row.1, 0x00, 0x00] : List Octet).length ≠ row.2 := by decide
theorem witness_onlyLength_presented : (presented [0x02, 0x00]).port = .command [0x02, 0x00] :: [] ∧
    ([0x02, 0x00] : List Octet).head? = some 0x02 ∧ ([0x02, 0x00] : List Octet).length ≠ 1 := by decide
theorem witness_memory : 44 + 4 ≤ 48 ∧ 0xFFFFFFFF < 256 ^ 4 ∧ (3 < 44 ∨ 44 + 4 ≤ 3) := by decide
theorem witness_version : 7 < 8 := by decide
theorem witness_delay : (2300 : Int) = (((2500 : Millis).toNat : Int) - (0 : Millis).toNat)
    - (((1200 : Millis).toNat : Int) - (1000 : Millis).toNat) := by decide
theorem witness_offs : (-300 : Int) = (((1000 : Millis).toNat : Int) - (0 : Millis).toNat)
    + (((1200 : Millis).toNat : Int) - (2500 : Millis).toNat) := by decide
theorem witness_data : data210.length = 48 := by decide
theorem witness_pollUint : (0 : Int) ≤ 0 ∧ (-2 : Int) ≤ -2 := by decide
theorem witness_fault_then_command : ∃ (s : State) (c : List Octet) (rest : List HostAction),
    s.port = .command c :: rest ∧ Spec.status c ≠ 0x00 ∧ rest ≠ [] :=
  ⟨{ State.reset with port := [.command [0x0B, 0x29], .command [0x02]] }, [0x0B, 0x29], [.command [0x02]], rfl, by decide,
    by decide⟩
theorem witness_presented : (presented [0x0F, 0x00]).port = .command [0x0F, 0x00] :: [] := rfl
theorem witness_exec_next : ∃ t, exec (.rxload 48 data210) State.reset = .next t := ⟨_, rfl⟩
theorem witness_exec_fault : ∃ t, exec (.tsdec 41) State.reset = .next t ∧ t.resp = some [0x03] ∧
    ([0x03] : List Octet).head? ≠ some 0x00 := ⟨_, rfl, rfl, by decide⟩
theorem witness_not_valid : Instr.init 0 ≠ .valid := by decide
theorem witness_frame : ¬ Spec.writes (.tsenc 40 0) 39 ∧ ¬ Spec.writes (.tsenc 32 0) 40 ∧ ¬ Spec.writes (.rxload 47 data210) 47
    ∧ ¬ Spec.writes .li 0 := by simp [Spec.writes]
theorem witness_writeSets : (∃ t, exec (.tsenc 40 0) State.reset = .next t) ∧ ¬ Spec.writes (.tsenc 40 0) 39 ∧
    (∀ now, Instr.tsenc 40 0 ≠ .init now) ∧ ∀ n data, Instr.tsenc 40 0 ≠ .rxload n data :=
  ⟨⟨_, rfl⟩, by simp [Spec.writes], by simp, by simp⟩
theorem witness_not_writers : (∀ now, Instr.tsenc 40 0 ≠ .init now) ∧ ∀ n data, Instr.tsenc 40 0 ≠ .rxload n data := by simp
theorem witness_agree : (∀ a, a < 48 → State.reset.octet a = (presented [0x02]).octet a) ∧
    State.reset.rxlen = (presented [0x02]).rxlen := by decide
theorem witness_inv_step : Inv (presented [0x02]) ∧ ∃ t, step (presented [0x02]) = .next t := ⟨by decide, _, rfl⟩
theorem witness_init_forgets : Memory.wf (holding 0 data210 48).pkt = true ∧
    (4294967295999 : Millis).toNat < Spec.limit := by decide
/-- A reply whose Originate field repeats the Transmit Timestamp of the request of 3913056000123. -/
def echoData : List Octet :=
  0x1C :: List.replicate 23 0x00 ++ [0xE9, 0x3C, 0x7F, 0x00, 0x1F, 0x7C, 0xED, 0x91] ++ List.replicate 16 0x00
theorem witness_echo : (3913056000123 : Millis).toNat < Spec.limit ∧ 48 ≤ (48 : Count).toNat ∧ echoData.length = 48 ∧
    ∀ j, j < 8 → echoData.getD (24 + j) 0x00 = Spec.tsOctet (3913056000123 : Millis).toNat j := by decide
theorem witness_clock_shift : ((5 : Millis).toNat : Int) = (0 : Millis).toNat + 5 ∧
    ((1005 : Millis).toNat : Int) = (1000 : Millis).toNat + 5 ∧ ((1205 : Millis).toNat : Int) = (1200 : Millis).toNat + 5 ∧
    ((2505 : Millis).toNat : Int) = (2500 : Millis).toNat + 5 := by decide
/-- A reply whose T2 and T3 are both 2024-01-01T00:00:00.500 less two hours. -/
def adjustedReply : State :=
  holding 32 [0xE9, 0x3C, 0x62, 0xE0, 0x80, 0x00, 0x00, 0x00, 0xE9, 0x3C, 0x62, 0xE0, 0x80, 0x00, 0x00, 0x00] 48
/-- The hypotheses of ExchangeRecordFromReply, at a usual offset and at both ends of the range. -/
theorem witness_exchange : ∀ utcOff ∈ [(7200000 : Int), -3913048800500, 2 ^ 64 - 1 - 3913048800500],
    0 ≤ (Spec.tsToMs adjustedReply 32 : Int) + utcOff ∧ (Spec.tsToMs adjustedReply 32 : Int) + utcOff < 2 ^ 64 ∧
    0 ≤ (Spec.tsToMs adjustedReply 40 : Int) + utcOff ∧ (Spec.tsToMs adjustedReply 40 : Int) + utcOff < 2 ^ 64 := by decide
theorem witness_above_the_buffer : 48 ≤ 48 ∧ ∃ t, exec (.tsenc 40 0) State.reset = .next t := ⟨Nat.le_refl 48, _, rfl⟩

end Sys2Proof.Tests
end

section
/-! SUPPORT. `MemRead` and `MemWrite` octet by octet (00_scope.md R7): the value read as a sum over the offsets, and the
octets a written number leaves behind. -/

namespace Sys2Proof

theorem beOctets_getElem (n v i : Nat) (h : i < (beOctets n v).length) :
    (beOctets n v)[i] = BitVec.ofNat 8 (v / 256 ^ (n - 1 - i)) := by
  induction n generalizing i with
  | zero => simp at h
  | succ n ih =>
    cases i with
    | zero => simp [beOctets]
    | succ i =>
      simp only [beOctets, List.getElem_cons_succ]
      rw [ih, show n + 1 - 1 - (i + 1) = n - 1 - i by omega]

namespace Machine

theorem beValue_octets_eq_sum (m : List Host.Cell) (a n : Nat) :
    beValue (Memory.octets m a n) = ∑ i ∈ Finset.range n, (Memory.get m (a + i)).toNat * 256 ^ (n - 1 - i) := by
  induction n generalizing a with
  | zero => rfl
  | succ n ih =>
    have tail : ∀ i, (Memory.get m (a + 1 + i)).toNat * 256 ^ (n - 1 - i) =
        (Memory.get m (a + (i + 1))).toNat * 256 ^ (n + 1 - 1 - (i + 1)) := fun i => by
      rw [show a + 1 + i = a + (i + 1) by omega, show n - 1 - i = n + 1 - 1 - (i + 1) by omega]
    rw [Memory.octets, beValue, Memory.octets_length, ih, Finset.sum_range_succ', Nat.add_comm]
    simp only [tail]
    rfl

/-- `MemRead` inside the buffer is the big-endian sum of the octets (00_scope.md R7). -/
theorem memRead_eq_sum {s : State} {a n : Nat} {k : Nat → Result} (h : a + n ≤ 48) :
    memRead s a n k = k (∑ i ∈ Finset.range n, (s.octet (a + i)).toNat * 256 ^ (n - 1 - i)) := by
  rw [memRead_of_le h, beValue_octets_eq_sum]
  rfl

theorem Memory.get_store_beOctets_inside (m : List Host.Cell) (a v : Nat) {n i : Nat} (h : i < n) :
    Memory.get (Memory.store m a (beOctets n v)) (a + i) = BitVec.ofNat 8 (v / 256 ^ (n - 1 - i) % 256) := by
  have hin : a ≤ a + i ∧ a + i - a < (beOctets n v).length := by rw [beOctets_length]; omega
  rw [Memory.get_store, dif_pos hin, beOctets_getElem, Nat.add_sub_cancel_left]
  exact BitVec.eq_of_toNat_eq (by simp)

theorem Memory.get_store_outside (m : List Host.Cell) {a x : Nat} {bs : List Octet} (h : x < a ∨ a + bs.length ≤ x) :
    Memory.get (Memory.store m a bs) x = Memory.get m x := by
  rw [Memory.get_store, dif_neg (by omega)]

/-- Settles O13: the value read is the sum over the offsets, and the state after a write is the one whose buffer holds the
stored octets, every other octet and field as before. -/
theorem memReadAndMemWrite : Obligations.MemReadAndMemWrite := by
  refine ⟨fun s a n k h => memRead_eq_sum h, fun s a n v k _ h => ?_⟩
  refine ⟨s.setPkt (Memory.store s.pkt a (beOctets n v)), memWrite_of_le h, fun i hi => ?_, fun x hx => ?_, rfl, rfl, rfl⟩
  · exact Memory.get_store_beOctets_inside s.pkt a v hi
  · exact Memory.get_store_outside s.pkt (by rwa [beOctets_length])

end Machine

end Sys2Proof
end

section
/-! SUPPORT. What every command does, said once (10_state.md sections 1 and 2; 60_exceptions.md R130 to R132): the fault
its operands raise, what it stores and the result it answers. `exec_of_fault` and `exec_of_no_fault` tie them to `exec`,
and `exec_cases` reads a next state by them. -/

namespace Sys2Proof.Machine

/-- The fault a command's operands raise. The state has no part in it. -/
def commandFault : Instr → Option CommandFault
  | .init now => if millisLimit ≤ now.toNat then some .errRange else none
  | .tsdec off => if maxOffset < off.toNat then some .errBounds else none
  | .tsenc off ms =>
    if maxOffset < off.toNat then some .errBounds else if millisLimit ≤ ms.toNat then some .errRange else none
  | _ => none

/-- What a command without fault stores: PKT and RXLEN afterwards. -/
def storeOf : Instr → State → State
  | .init now, s => (s.setPkt (Memory.request s.pkt now.toNat)).setRxlen 0
  | .tsenc off ms, s => s.setPkt (Memory.timestamp s.pkt off.toNat ms.toNat)
  | .rxload n data, s => (s.setPkt (Memory.store s.pkt 0 (data.take (min n.toNat 48)))).setRxlen n
  | _, s => s

/-- The timestamp at an offset of the buffer in milliseconds (43_timestamp.md R91). -/
def timestampAt (s : State) (a : Nat) : Nat :=
  tsToMs (beValue (Memory.octets s.pkt a 4)) (beValue (Memory.octets s.pkt (a + 4) 4))

/-- The payload of REFID for each kind (42_root_refid.md R83). -/
def refIdValue (s : State) : RefIdKind → Nat
  | .ascii | .ipv4 => beValue (Memory.octets s.pkt 12 4)
  | .tstamp => timestampAt s 12
  | .na => 0

/-- The kind REFID reads from the buffer (42_root_refid.md R82). -/
def refIdKindOf (s : State) : RefIdKind :=
  refIdKind (stratumOf (s.octet 1).toNat) (versionOf (s.octet 0).toNat)

/-- The result octets of a command without fault. -/
def resultOctets : Instr → State → List Octet
  | .li, s => beOctets 1 (leapCode (leapOf (s.octet 0).toNat))
  | .vn, s => beOctets 1 (versionOf (s.octet 0).toNat)
  | .mode, s => beOctets 1 (modeCode (modeOf (s.octet 0).toNat))
  | .strat, s => beOctets 1 (stratumCode (stratumOf (s.octet 1).toNat))
  | .poll, s => beOctets 1 (tc 8 (s8 (s.octet 2).toNat))
  | .prec, s => beOctets 1 (tc 8 (s8 (s.octet 3).toNat))
  | .rdel, s => beOctets 5 (rootNumerator (beValue (Memory.octets s.pkt 4 4)))
  | .rdisp, s => beOctets 5 (rootNumerator (beValue (Memory.octets s.pkt 8 4)))
  | .refid, s => beOctets 1 (refIdCode (refIdKindOf s)) ++ beOctets 8 (refIdValue s (refIdKindOf s))
  | .tsdec off, s => beOctets 8 (timestampAt s off.toNat)
  | .ms2cal ms, _ => beOctets 8 ms.toNat ++ civilOctets (civilFromMs ms.toNat)
  | .valid, s => beOctets 1 (boolCode (isValidReply s.rxlen.toNat (s.octet 0).toNat))
  | .delay t1 t2 t3 t4, _ => clockOctets (roundTripDelay (millisInt t1) (millisInt t2) (millisInt t3) (millisInt t4))
  | .offs t1 t2 t3 t4, _ => clockOctets (offsetHalves (millisInt t1) (millisInt t2) (millisInt t3) (millisInt t4))
  | .txread, s => Memory.octets s.pkt 0 48
  | .init _, _ | .tsenc _ _, _ | .rxload _ _, _ => []

theorem commandFault_init_eq_none {now : Millis} : commandFault (.init now) = none ↔ now.toNat < millisLimit := by
  simp [commandFault]

theorem commandFault_tsdec_eq_none {off : Octet} : commandFault (.tsdec off) = none ↔ off.toNat ≤ maxOffset := by
  simp [commandFault]

theorem commandFault_tsenc_eq_none {off : Octet} {ms : Millis} :
    commandFault (.tsenc off ms) = none ↔ off.toNat ≤ maxOffset ∧ ms.toNat < millisLimit := by
  simp only [commandFault]
  split <;> simp <;> omega

theorem faultStatus_ne_okStatus (f : CommandFault) : faultStatus f ≠ okStatus := by
  cases f <;> decide

theorem refIdPayload_eq (s : State) (kind : RefIdKind) (k : Nat → Result) :
    refIdPayload s kind k = k (refIdValue s kind) := by
  cases kind with
  | ascii | ipv4 => exact memRead_of_le (by decide)
  | tstamp => exact readTimestamp_of_le (by decide)
  | na => rfl

theorem execRefid_eq (s : State) : execRefid s = answer s (resultOctets .refid s) := by
  rw [execRefid, memRead_one (by decide), memRead_one (by decide)]
  exact refIdPayload_eq s (refIdKindOf s) _

theorem execTsdec_of_le {s : State} {off : Octet} (h : off.toNat ≤ 40) :
    execTsdec off s = answer s (resultOctets (.tsdec off) s) := by
  rw [execTsdec, withOffset_of_le h, readTimestamp_of_le h]
  rfl

/-- A command whose operands raise a fault ends in it, whatever the state (60_exceptions.md R131). -/
theorem exec_of_fault {i : Instr} {f : CommandFault} (h : commandFault i = some f) (s : State) :
    exec i s = raise s f := by
  cases i with
  | init now =>
    obtain ⟨hms, rfl⟩ : millisLimit ≤ now.toNat ∧ .errRange = f := by simpa [commandFault] using h
    rw [exec, execInit, withEncodable_of_le hms]
  | tsdec off =>
    obtain ⟨hoff, rfl⟩ : maxOffset < off.toNat ∧ .errBounds = f := by simpa [commandFault] using h
    rw [exec, execTsdec, withOffset_of_gt hoff]
  | tsenc off ms =>
    rw [exec, execTsenc]
    by_cases hoff : maxOffset < off.toNat
    · obtain rfl : .errBounds = f := by simpa [commandFault, hoff] using h
      exact withOffset_of_gt hoff
    · obtain ⟨hms, rfl⟩ : millisLimit ≤ ms.toNat ∧ .errRange = f := by simpa [commandFault, hoff] using h
      rw [withOffset_of_le (not_lt.mp hoff)]
      exact withEncodable_of_le hms
  | _ => simp [commandFault] at h

/-- A command whose operands raise no fault stores what it stores and answers its result (00_scope.md R8). -/
theorem exec_of_no_fault {i : Instr} (h : commandFault i = none) (s : State) :
    exec i s = answer (storeOf i s) (resultOctets i s) := by
  rw [exec.eq_def]
  cases i with
  | init now => exact execInit_of_lt (commandFault_init_eq_none.mp h)
  | li | vn | mode | strat | poll | prec | valid => exact memRead_one (by decide)
  | rdel | rdisp => exact memRead_of_le (by decide)
  | refid => exact execRefid_eq s
  | tsdec off => exact execTsdec_of_le (commandFault_tsdec_eq_none.mp h)
  | tsenc off ms =>
    obtain ⟨hoff, hms⟩ := commandFault_tsenc_eq_none.mp h
    exact execTsenc_of_lt hoff hms
  | ms2cal | delay | offs => rfl
  | rxload n data => exact execRxload_eq n data s
  | txread => exact readOctets_of_le (by decide)

/-- The next state of a command: a fault changes the response alone, and without one PKT and RXLEN are as stored. -/
theorem exec_cases {i : Instr} {s t : State} (h : exec i s = .next t) :
    (∃ f, commandFault i = some f ∧ t = s.setResp (some [faultStatus f])) ∨
    (commandFault i = none ∧ t = (storeOf i s).setResp (some (okStatus :: resultOctets i s))) := by
  cases hf : commandFault i with
  | some f => exact .inl ⟨f, rfl, eq_of_raise_eq_next (exec_of_fault hf s ▸ h)⟩
  | none => exact .inr ⟨rfl, eq_of_answer_eq_next (exec_of_no_fault hf s ▸ h)⟩

end Sys2Proof.Machine
end

section
/-! SUPPORT. RXLEN's writers and its one reader (10_state.md R11). -/

namespace Sys2Proof.Machine

/-- What a command without fault stores in PKT does not depend on RXLEN. -/
theorem storeOf_setRxlen_pkt (i : Instr) (s : State) (n : Count) :
    (storeOf i (s.setRxlen n)).pkt = (storeOf i s).pkt := by
  cases i <;> rfl

/-- No result but VALID's depends on RXLEN. -/
theorem resultOctets_setRxlen {i : Instr} (h : i ≠ .valid) (s : State) (n : Count) :
    resultOctets i (s.setRxlen n) = resultOctets i s := by
  cases i with
  | valid => exact absurd rfl h
  | _ => rfl

theorem rxlen_of_step_reset {s : State} {rest : List HostAction} (h : s.port = .reset :: rest) :
    ∃ t, step s = .next t ∧ t.rxlen = 0 :=
  ⟨resetBlock s, by rw [step, h], resetBlock_rxlen s⟩

theorem storeOf_rxlen {i : Instr} (hinit : ∀ now, i ≠ .init now) (hload : ∀ n data, i ≠ .rxload n data) (s : State) :
    (storeOf i s).rxlen = s.rxlen := by
  cases i with
  | init now => exact absurd rfl (hinit now)
  | rxload n data => exact absurd rfl (hload n data)
  | tsenc off ms => exact State.setPkt_rxlen s _
  | _ => rfl

/-- INIT writes 0 when it answers OK, and a faulting INIT writes nothing. -/
theorem rxlen_of_exec_init {now : Millis} {s t : State} (h : exec (.init now) s = .next t) :
    t.rxlen = if t.resp = some [okStatus] then 0 else s.rxlen := by
  obtain ⟨f, -, rfl⟩ | ⟨-, rfl⟩ := exec_cases h
  · have hne : some [faultStatus f] ≠ some [okStatus] := by simpa using faultStatus_ne_okStatus f
    exact (if_neg hne).symm
  · exact (if_pos rfl).symm

theorem rxlen_of_exec_rxload {n : Count} {data : List Octet} {s t : State} (h : exec (.rxload n data) s = .next t) :
    t.rxlen = n := by
  obtain ⟨f, hf, -⟩ | ⟨-, rfl⟩ := exec_cases h
  · simp [commandFault] at hf
  · rfl

theorem rxlen_of_exec_of_ne {i : Instr} {s t : State} (hinit : ∀ now, i ≠ .init now)
    (hload : ∀ n data, i ≠ .rxload n data) (h : exec i s = .next t) : t.rxlen = s.rxlen := by
  obtain ⟨f, -, rfl⟩ | ⟨-, rfl⟩ := exec_cases h
  · rfl
  · exact storeOf_rxlen hinit hload s

theorem exec_setRxlen_agrees {i : Instr} (h : i ≠ .valid) (s : State) (n : Count) :
    ∃ t t', exec i s = .next t ∧ exec i (s.setRxlen n) = .next t' ∧ t'.pkt = t.pkt ∧ t'.resp = t.resp := by
  cases hf : commandFault i with
  | some f => exact ⟨_, _, exec_of_fault hf s, exec_of_fault hf (s.setRxlen n), rfl, rfl⟩
  | none =>
    refine ⟨_, _, exec_of_no_fault hf s, exec_of_no_fault hf (s.setRxlen n), storeOf_setRxlen_pkt i s n, ?_⟩
    rw [State.setResp_resp, State.setResp_resp, resultOctets_setRxlen h]

/-- Settles O36: reset, INIT and RXLOAD write RXLEN, the other commands store nothing in it, and only VALID's result
reads it. -/
theorem rxlenWritersAndReaders : Obligations.RxlenWritersAndReaders := by
  refine ⟨fun _ _ h => rxlen_of_step_reset h, fun i s t h => ?_, fun i s n hi => exec_setRxlen_agrees hi s n⟩
  cases i with
  | init now => exact rxlen_of_exec_init h
  | rxload n data => exact rxlen_of_exec_rxload h
  | _ => exact rxlen_of_exec_of_ne (by simp) (by simp) h

end Sys2Proof.Machine
end

section
/-! SUPPORT. The decoder read rule by rule (30_encoding.md R41 to R43, R46, R47): which octets are opcodes, one equation
per way `decode` can end, the octets that the assembled operands came from, and what a step does with a command that
faults. -/

namespace Sys2Proof

/-! Which octets are opcodes -/

theorem Opcode.number_of_ofOctet {op : Octet} {k : Opcode} (h : Opcode.ofOctet op = some k) : k.number = op := by
  simpa using List.find?_some h

/-- The illegal opcodes are the values between the rows of the opcode map and beyond it (30_encoding.md R46). -/
theorem Opcode.ofOctet_eq_none_iff (op : Octet) :
    Opcode.ofOctet op = none ↔
      op = 0x00 ∨ op = 0x0F ∨ (0x12 ≤ op.toNat ∧ op.toNat ≤ 0x1F) ∨ 0x22 ≤ op.toNat := by
  simp only [Opcode.ofOctet, Opcode.all, List.find?_eq_none, List.forall_mem_cons, Opcode.number, beq_iff_eq,
    List.not_mem_nil, false_imp_iff, implies_true, and_true]
  bv_omega

/-- The statements' opcode map has a row for each opcode, in the order of the model's list (30_encoding.md R43). -/
theorem opcodeLengths_eq_map_all :
    Spec.opcodeLengths = Opcode.all.map fun k => (k.number.toNat, k.format.length) := rfl

theorem Opcode.lookup_map_eq_find? (ks : List Opcode) (op : Octet) :
    (ks.map fun k => (k.number.toNat, k.format.length)).lookup op.toNat =
      (ks.find? fun k => k.number == op).map fun k => k.format.length := by
  induction ks with
  | nil => rfl
  | cons k ks ih =>
    have htest : (op.toNat == k.number.toNat) = (k.number == op) := by
      rw [Bool.eq_iff_iff, beq_iff_eq, beq_iff_eq, ← BitVec.toNat_inj, eq_comm]
    rw [List.map_cons, List.lookup_cons, List.find?_cons, ih, htest]
    cases k.number == op <;> rfl

/-- The statements' opcode map and the decoder's search agree on every octet. -/
theorem opcodeLengths_lookup (op : Octet) :
    Spec.opcodeLengths.lookup op.toNat = (Opcode.ofOctet op).map fun k => k.format.length := by
  rw [opcodeLengths_eq_map_all]
  exact Opcode.lookup_map_eq_find? Opcode.all op

/-! The ways the decoder can end -/

theorem decode_nil : decode [] = .error .errLength := rfl

theorem decode_of_ofOctet_none {op : Octet} (h : Opcode.ofOctet op = none) (operands : List Octet) :
    decode (op :: operands) = .error .errOpcode := by
  simp [decode, h]

theorem decode_of_length_eq {op : Octet} {operands : List Octet} {k : Opcode} (h : Opcode.ofOctet op = some k)
    (hlen : operands.length + 1 = k.format.length) : decode (op :: operands) = .ok (k.assemble (op :: operands)) := by
  simp [decode, h, hlen]

theorem decode_of_length_ne {op : Octet} {operands : List Octet} {k : Opcode} (h : Opcode.ofOctet op = some k)
    (hlen : operands.length + 1 ≠ k.format.length) : decode (op :: operands) = .error .errLength := by
  simp [decode, h, hlen]

/-! The octets that the assembled operands came from -/

/-- An operand of width `8 * n` assembled from `n` octets is laid out as those octets again. -/
theorem beOctets_ofNat_beValue {bs : List Octet} {n w : Nat} (h : bs.length = n) (hw : w = 8 * n) :
    beOctets n (BitVec.ofNat w (beValue bs)).toNat = bs := by
  subst h hw
  have hlt : beValue bs < 2 ^ (8 * bs.length) := by simpa [Nat.pow_mul] using beValue_lt bs
  rw [BitVec.toNat_ofNat, Nat.mod_eq_of_lt hlt, beOctets_beValue]

theorem beOctets_millisAt {c : List Octet} {start : Nat} (h : start + 8 ≤ c.length) :
    beOctets 8 (millisAt c start).toNat = octetsAt c start 8 :=
  beOctets_ofNat_beValue (octetsAt_length h) rfl

theorem offsetAt1_singleton {c : List Octet} (h : 2 ≤ c.length) : [offsetAt1 c] = octetsAt c 1 1 := by
  have hoff : beOctets 1 (offsetAt1 c).toNat = octetsAt c 1 1 := beOctets_ofNat_beValue (octetsAt_length h) rfl
  rwa [beOctets_one, BitVec.ofNat_toNat, BitVec.setWidth_eq] at hoff

theorem octetsAt_append_drop (c : List Octet) (start len : Nat) :
    octetsAt c start len ++ c.drop (start + len) = c.drop start := by
  rw [octetsAt, ← List.drop_drop, List.take_append_drop]

theorem octetsAt_eq_drop {c : List Octet} {start len : Nat} (h : c.length ≤ start + len) :
    octetsAt c start len = c.drop start :=
  List.take_of_length_le (by rw [List.length_drop]; omega)

/-- Four millisecond operands fill a command of format T (30_encoding.md R41). -/
theorem octetsAt_four_millis {c : List Octet} (h : c.length = 33) :
    octetsAt c 1 8 ++ (octetsAt c 9 8 ++ (octetsAt c 17 8 ++ octetsAt c 25 8)) = c.drop 1 := by
  rw [octetsAt_eq_drop (start := 25) (by omega), octetsAt_append_drop c 17 8, octetsAt_append_drop c 9 8,
    octetsAt_append_drop c 1 8]

@[simp] theorem Opcode.opcode_assemble (k : Opcode) (c : List Octet) : (k.assemble c).opcode = k := by
  cases k <;> rfl

/-- At the length of its format a command's operands are exactly the octets after the opcode (30_encoding.md R42). -/
theorem Opcode.operandOctets_assemble {k : Opcode} {c : List Octet} (h : c.length = k.format.length) :
    (k.assemble c).operandOctets = c.drop 1 := by
  cases k with
  | init | ms2cal =>
    have hc : c.length = 9 := h
    exact (beOctets_millisAt (by omega)).trans (octetsAt_eq_drop (by omega))
  | tsdec =>
    have hc : c.length = 2 := h
    exact (offsetAt1_singleton (by omega)).trans (octetsAt_eq_drop (by omega))
  | tsenc =>
    have hc : c.length = 10 := h
    change [offsetAt1 c] ++ beOctets 8 (millisAt c 2).toNat = c.drop 1
    rw [offsetAt1_singleton (by omega), beOctets_millisAt (by omega), octetsAt_eq_drop (start := 2) (by omega),
      octetsAt_append_drop c 1 1]
  | delay | offs =>
    have hc : c.length = 33 := h
    rw [← octetsAt_four_millis hc, ← beOctets_millisAt (start := 1) (by omega),
      ← beOctets_millisAt (start := 9) (by omega), ← beOctets_millisAt (start := 17) (by omega),
      ← beOctets_millisAt (start := 25) (by omega)]
    rfl
  | rxload =>
    have hc : c.length = 51 := h
    change beOctets 2 (BitVec.ofNat 16 (beValue (octetsAt c 1 2))).toNat ++ octetsAt c 3 48 = c.drop 1
    rw [beOctets_ofNat_beValue (octetsAt_length (by omega)) rfl, octetsAt_eq_drop (start := 3) (by omega),
      octetsAt_append_drop c 1 2]
  | li | vn | mode | strat | poll | prec | rdel | rdisp | refid | valid | txread =>
    have hc : c.length = 1 := h
    exact (List.drop_of_length_le (by omega)).symm

/-- Assembling and encoding gives the octets back, at the length of the opcode's format. -/
theorem encode_assemble {op : Octet} {operands : List Octet} {k : Opcode} (h : Opcode.ofOctet op = some k)
    (hlen : operands.length + 1 = k.format.length) : encode (k.assemble (op :: operands)) = op :: operands := by
  have hoperands : (k.assemble (op :: operands)).operandOctets = operands := Opcode.operandOctets_assemble hlen
  rw [encode, Opcode.opcode_assemble, Opcode.number_of_ofOctet h, hoperands]

/-! A command that faults in the decoder -/

namespace Machine

/-- A command that does not decode answers its fault, and PKT and RXLEN stay (60_exceptions.md R131). -/
theorem step_of_decode_error {s : State} {c : List Octet} {rest : List HostAction} {f : CommandFault}
    (hport : s.port = .command c :: rest) (h : decode c = .error f) :
    step s = .next { s with port := rest, resp := some [faultStatus f] } := by
  simp [step, hport, h, raise, acceptAction, State.setPort, State.setResp]

/-- Settles O8: the illegal values are those that `Opcode.ofOctet` finds nowhere, and any other value has a row in the
opcode map whose length decodes. -/
theorem illegalOpcodesFault : Obligations.IllegalOpcodesFault := by
  refine ⟨fun s op operands rest hport hop => ?_, fun op operands hop => ?_, fun c => ?_⟩
  · have hnone : Opcode.ofOctet op = none := (Opcode.ofOctet_eq_none_iff op).mpr hop
    exact step_of_decode_error hport (decode_of_ofOctet_none hnone operands)
  · have hne : Opcode.ofOctet op ≠ none := fun h => hop ((Opcode.ofOctet_eq_none_iff op).mp h)
    obtain ⟨k, hk⟩ := Option.ne_none_iff_exists'.mp hne
    refine ⟨k.format.length, by rw [opcodeLengths_lookup, hk, Option.map_some], fun hlen => ?_⟩
    exact ⟨_, decode_of_length_eq hk hlen⟩
  · cases decode c with
    | ok i => exact .inl ⟨i, rfl⟩
    | error f => exact .inr ⟨f, rfl⟩

/-- Settles O9: the row of the opcode map is the opcode found, and at its length the octets are the encoding of what was
assembled from them. -/
theorem decoderOrder : Obligations.DecoderOrder := by
  refine ⟨decode_nil, fun op operands => ?_⟩
  rw [opcodeLengths_lookup]
  cases hk : Opcode.ofOctet op with
  | none => exact decode_of_ofOctet_none hk operands
  | some k =>
    rw [Option.map_some]
    by_cases hlen : operands.length + 1 = k.format.length
    · simpa only [if_pos hlen] using ⟨_, decode_of_length_eq hk hlen, encode_assemble hk hlen⟩
    · simpa only [if_neg hlen] using decode_of_length_ne hk hlen

/-! The tables of names -/

/-- Settles O10: each pseudo-command is an abbreviation of its command (30_encoding.md R49). -/
theorem pseudoCommandsExpand : Obligations.PseudoCommandsExpand :=
  ⟨rfl, rfl, rfl, rfl, fun _ => rfl⟩

/-- Settles O12: each table of codes, row by row (30_encoding.md R45). -/
theorem enumerationCodes : Obligations.EnumerationCodes :=
  ⟨rfl, rfl, rfl, rfl, rfl⟩

end Machine

end Sys2Proof
end

section
/-! SUPPORT. INIT (40_request_init.md R60): two rules that any command's encoding and length fault follow from, then the
request octet by octet. -/

namespace Sys2Proof

/-! The encoding and the length fault of any opcode -/

/-- At the length of its opcode's format an octet string encodes the command assembled from it, and decodes to it. -/
theorem encodes_assemble {op : Octet} {operands : List Octet} {k : Opcode} (h : Opcode.ofOctet op = some k)
    (hlen : operands.length + 1 = k.format.length) : Spec.Encodes (op :: operands) (k.assemble (op :: operands)) :=
  ⟨encode_assemble h hlen, decode_of_length_eq h hlen⟩

/-- A millisecond operand that ends the command is read back from its octets. -/
theorem millisAt_of_drop {c : List Octet} {start : Nat} {ms : Millis} (h : c.drop start = beOctets 8 ms.toNat) :
    millisAt c start = ms :=
  millisAt_of_octetsAt (by rw [octetsAt, h, List.take_of_length_le (beOctets_length 8 _).le])

theorem encodes_init (now : Millis) : Spec.Encodes (0x01 :: beOctets 8 now.toNat) (.init now) := by
  have hnow : millisAt (0x01 :: beOctets 8 now.toNat) 1 = now := millisAt_of_drop rfl
  have h : Spec.Encodes (0x01 :: beOctets 8 now.toNat) (.init (millisAt (0x01 :: beOctets 8 now.toNat) 1)) :=
    encodes_assemble (k := .init) rfl rfl
  rwa [hnow] at h

namespace Machine

/-- An opcode at any length but its format's is a length fault (30_encoding.md R47). -/
theorem onlyLength_of_ofOctet {op : Octet} {k : Opcode} (h : Opcode.ofOctet op = some k) :
    Spec.OnlyLength op k.format.length := by
  intro s c rest hport hhead hlen
  obtain ⟨operands, rfl⟩ := List.head?_eq_some_iff.mp hhead
  exact step_of_decode_error hport (decode_of_length_ne h hlen)

/-! The octets of an encoded timestamp and of the request -/

/-- The eight octets of an encoded timestamp at its offset, and every other octet as before (43_timestamp.md R96). -/
theorem Memory.get_timestamp (m : List Host.Cell) (a ms x : Nat) :
    Memory.get (Memory.timestamp m a ms) x =
      if a ≤ x ∧ x < a + 8 then Spec.tsOctet ms (x - a) else Memory.get m x := by
  simp only [Memory.timestamp, Memory.get_store, beOctets_getElem, beOctets_length, Spec.tsOctet]
  by_cases hfraction : a + 4 ≤ x ∧ x - (a + 4) < 4
  · have hexp : 4 - 1 - (x - (a + 4)) = 7 - (x - a) := by omega
    rw [dif_pos hfraction, if_pos (by omega), if_neg (by omega), hexp, msToFraction]
  · rw [dif_neg hfraction]
    by_cases hseconds : a ≤ x ∧ x - a < 4
    · rw [dif_pos hseconds, if_pos (by omega), if_pos hseconds.2, msToSeconds]
    · rw [dif_neg hseconds, if_neg (by omega)]

theorem Memory.get_store_zeros (m : List Host.Cell) (n x : Nat) :
    Memory.get (Memory.store m 0 (List.replicate n 0x00)) x = if x < n then 0x00 else Memory.get m x := by
  simp [Memory.get_store]

/-- The octets before INIT writes its timestamp: the header octet, then zeros to the end of the buffer. -/
theorem Memory.get_store_header (m : List Host.Cell) (x : Nat) :
    Memory.get (Memory.store (Memory.store m 0 (List.replicate Config.pktLen 0x00)) 0 [requestHeader]) x =
      if x = 0 then 0x1B else if x < 48 then 0x00 else Memory.get m x := by
  by_cases hx : x = 0
  · subst hx
    simp [Memory.get_store, requestHeader]
  · have houtside : x < 0 ∨ 0 + [requestHeader].length ≤ x := .inr (by simp; omega)
    rw [Memory.get_store_outside _ houtside, Memory.get_store_zeros, if_neg hx]
    rfl

/-- The octets of the request (40_request_init.md R60). -/
theorem Memory.get_request (m : List Host.Cell) (ms x : Nat) :
    Memory.get (Memory.request m ms) x =
      if x = 0 then 0x1B else if x < 40 then 0x00 else if x < 48 then Spec.tsOctet ms (x - 40) else Memory.get m x := by
  have hts : Memory.request m ms = Memory.timestamp
      (Memory.store (Memory.store m 0 (List.replicate Config.pktLen 0x00)) 0 [requestHeader]) 40 ms := rfl
  rw [hts, Memory.get_timestamp, Memory.get_store_header]
  by_cases htransmit : 40 ≤ x ∧ x < 40 + 8
  · rw [if_pos htransmit, if_neg (by omega), if_neg (by omega), if_pos htransmit.2]
  · obtain hbelow | habove : x < 40 ∨ 48 ≤ x := by omega
    · rw [if_neg htransmit, if_pos hbelow, if_pos (hbelow.trans (by decide))]
    · rw [if_neg htransmit, if_neg (show ¬x < 40 by omega), if_neg habove.not_gt, if_neg habove.not_gt]

/-- From the first count that cannot be encoded on, INIT answers ERR_RANGE alone (60_exceptions.md R131). -/
theorem exec_init_of_limit_le {now : Millis} (h : Spec.limit ≤ now.toNat) (s : State) :
    exec (.init now) s = .next { s with resp := some [0x04] } := by
  have hfault : commandFault (.init now) = some .errRange := if_pos h
  exact exec_of_fault hfault s

/-- Below the limit INIT stores the request and RXLEN 0, and answers OK. -/
theorem exec_init_of_lt_limit {now : Millis} (h : now.toNat < Spec.limit) (s : State) :
    exec (.init now) s =
      .next (((s.setPkt (Memory.request s.pkt now.toNat)).setRxlen 0).setResp (some [0x00])) :=
  execInit_of_lt h

/-- Settles O14: INIT's two outcomes, and the octets of the request it stores read by `Memory.get_request`. -/
theorem initBuildsTheRequest : Obligations.InitBuildsTheRequest := by
  refine ⟨fun s now h => exec_init_of_limit_le h s, fun s now h => ?_, encodes_init,
    onlyLength_of_ofOctet (k := .init) rfl⟩
  refine ⟨_, exec_init_of_lt_limit h s, by simp, by simp, by simp, fun a => ?_⟩
  rw [State.octet_setResp, State.octet_setRxlen, State.octet_setPkt, Memory.get_request]
  rfl

end Machine

end Sys2Proof
end

section
/-! SUPPORT. The header fields (41_header_decode.md R65 to R71): each field's code as arithmetic on its octet, the
exponent octet as two's complement and as the seconds the host reads, and the commands' answers from these. -/

namespace Sys2Proof.Machine

/-- A command without fault that stores nothing answers its result and changes the response alone. -/
theorem exec_of_resultOctets {i : Instr} {s : State} {r : List Octet} (hfault : commandFault i = none)
    (hstore : storeOf i s = s) (hresult : resultOctets i s = r) :
    exec i s = .next { s with resp := some (0x00 :: r) } := by
  rw [exec_of_no_fault hfault, hstore, hresult]
  rfl

/-- A command of format N is its opcode alone, and faults at any other length (30_encoding.md R41, R47). -/
theorem encodes_and_onlyLength_of_format_n {op : Octet} {k : Opcode} (h : Opcode.ofOctet op = some k)
    (hformat : k.format = .n) : Spec.Encodes [op] (k.assemble [op]) ∧ Spec.OnlyLength op 1 := by
  have hlen : k.format.length = 1 := by rw [hformat]; rfl
  exact ⟨encodes_assemble h hlen.symm, hlen ▸ onlyLength_of_ofOctet h⟩

/-! The fields of PKT[0] and PKT[1] -/

/-- All four values of the Leap Indicator field are named, each by its own code (41_header_decode.md R65). -/
theorem leapCode_leapOf (octet0 : Nat) : leapCode (leapOf octet0) = octet0 / 64 % 4 := by
  have hfield : bits octet0 7 6 = octet0 / 64 % 4 := rfl
  have hlt : octet0 / 64 % 4 < 4 := Nat.mod_lt _ (by decide)
  rw [leapOf, hfield]
  generalize octet0 / 64 % 4 = field at hlt
  interval_cases field <;> rfl

/-- Bits 7:6 are all that is left of an octet above bit 5. -/
theorem leapCode_leapOf_octet (b : Octet) : leapCode (leapOf b.toNat) = b.toNat / 64 := by
  rw [leapCode_leapOf, Nat.mod_eq_of_lt]
  omega

theorem versionOf_eq (octet0 : Nat) : versionOf octet0 = octet0 / 8 % 8 := rfl

/-- The field values 1..5 are their own codes, and 0, 6 and 7 share Unknown's (41_header_decode.md R67). -/
theorem modeCode_modeOf (octet0 : Nat) :
    modeCode (modeOf octet0) = if 1 ≤ octet0 % 8 ∧ octet0 % 8 ≤ 5 then octet0 % 8 else 0 := by
  have hfield : bits octet0 2 0 = octet0 % 8 := by simp [bits]
  have hlt : octet0 % 8 < 8 := Nat.mod_lt _ (by decide)
  rw [modeOf, hfield]
  generalize octet0 % 8 = field at hlt
  interval_cases field <;> rfl

/-- The class's code by the ranges of the stratum (41_header_decode.md R68). -/
theorem stratumCode_stratumOf (octet1 : Nat) :
    stratumCode (stratumOf octet1) =
      if octet1 = 0 then 0 else if octet1 = 1 then 1 else if octet1 ≤ 15 then 2 else 3 := by
  rw [stratumOf]
  simp only [apply_ite stratumCode]
  rfl

/-! The exponent octets PKT[2] and PKT[3] -/

theorem s8_toNat (b : Octet) : s8 b.toNat = b.toInt := by
  rw [s8, BitVec.toInt_eq_toNat_cond]
  split <;> split <;> omega

theorem tc_eq_toNat_ofInt (n : Nat) (z : Int) : tc n z = (BitVec.ofInt n z).toNat := by
  rw [tc, BitVec.toNat_ofInt, Nat.cast_pow, Nat.cast_ofNat]

/-- Reading an octet as two's complement and laying it out again loses nothing (00_scope.md R6). -/
theorem beOctets_tc_s8 (b : Octet) : beOctets 1 (tc 8 (s8 b.toNat)) = [b] := by
  rw [s8_toNat, tc_eq_toNat_ofInt, BitVec.ofInt_toInt, beOctets_one, BitVec.ofNat_toNat, BitVec.setWidth_eq]

/-- A response of one result octet, read as two's complement. -/
theorem resultInt_pair (status b : Octet) : resultInt [status, b] = b.toInt := by
  simp only [resultInt, resultNat, resultOf, List.tail_cons, beValue_singleton, List.length_singleton, pow_one,
    BitVec.toInt_eq_toNat_cond]
  rfl

theorem exponentValue_eq_zpow (e : Int) : exponentValue e = (2 : ℚ) ^ e := by
  rw [exponentValue]
  split
  case isTrue h =>
    lift e to ℕ using h
    simp [Rat.mkRat_one]
  case isFalse h =>
    obtain ⟨n, rfl⟩ : ∃ n : ℕ, e = -n := ⟨(-e).toNat, by omega⟩
    simp [Rat.mkRat_eq_div]

/-- What the host reads from an exponent response is exactly 2^e seconds (41_header_decode.md R69, R70). -/
theorem secondsOf_pair (status b : Octet) : secondsOf [status, b] = (2 : ℚ) ^ b.toInt := by
  rw [secondsOf, resultInt_pair, exponentValue_eq_zpow]

/-! `poll_uint` (41_header_decode.md R71) -/

theorem pollUint_of_nonneg {e : Int} (h : 0 ≤ e) : pollUint e = 2 ^ e.toNat := if_pos h

theorem pollUint_neg_one : pollUint (-1) = Config.pollHalfRound.val := rfl

theorem pollUint_of_le_neg_two {e : Int} (h : e ≤ -2) : pollUint e = 0 := by
  rw [pollUint, if_neg (by omega), if_neg (by omega)]

/-! The statements -/

/-- Settles O15: the code of the Leap Indicator field is the octet's two upper bits (`leapCode_leapOf_octet`). -/
theorem liAnswersBitsSevenSix : Obligations.LiAnswersBitsSevenSix := by
  refine ⟨fun s => exec_of_resultOctets rfl rfl ?_, encodes_and_onlyLength_of_format_n (k := .li) rfl rfl⟩
  rw [resultOctets, beOctets_one, leapCode_leapOf_octet]

/-- Settles O16: the version is the field as it is (`versionOf_eq`). -/
theorem vnAnswersBitsFiveToThree : Obligations.VnAnswersBitsFiveToThree := by
  refine ⟨fun s => exec_of_resultOctets rfl rfl ?_, encodes_and_onlyLength_of_format_n (k := .vn) rfl rfl⟩
  rw [resultOctets, beOctets_one, versionOf_eq]

/-- Settles O17: the field values that name a mode are the ones coded as themselves (`modeCode_modeOf`). -/
theorem modeAnswersBitsTwoToZero : Obligations.ModeAnswersBitsTwoToZero := by
  refine ⟨fun s => exec_of_resultOctets rfl rfl ?_, encodes_and_onlyLength_of_format_n (k := .mode) rfl rfl⟩
  rw [resultOctets, beOctets_one, modeCode_modeOf, apply_ite (BitVec.ofNat 8)]
  rfl

/-- Settles O18: the code of the class follows the ranges of the stratum (`stratumCode_stratumOf`). -/
theorem stratAnswersTheClass : Obligations.StratAnswersTheClass := by
  refine ⟨fun s => exec_of_resultOctets rfl rfl ?_, encodes_and_onlyLength_of_format_n (k := .strat) rfl rfl⟩
  rw [resultOctets, beOctets_one, stratumCode_stratumOf]
  simp only [apply_ite (BitVec.ofNat 8)]
  rfl

/-- Settles O19: the octet is delivered unchanged and the host reads it as a power of two. -/
theorem pollAnswersTheExponent : Obligations.PollAnswersTheExponent := by
  refine ⟨fun s => ⟨exec_of_resultOctets rfl rfl ?_, secondsOf_pair _ _⟩,
    encodes_and_onlyLength_of_format_n (k := .poll) rfl rfl⟩
  rw [resultOctets, beOctets_tc_s8]

/-- Settles O20: as for POLL, `beOctets_tc_s8` and `secondsOf_pair` on the octet of the precision. -/
theorem precAnswersTheExponent : Obligations.PrecAnswersTheExponent := by
  refine ⟨fun s => ⟨exec_of_resultOctets rfl rfl ?_, secondsOf_pair _ _⟩,
    encodes_and_onlyLength_of_format_n (k := .prec) rfl rfl⟩
  rw [resultOctets, beOctets_tc_s8]

/-- Settles O21: one equation per range of the exponent, and the open parameter has only two values (log 8). -/
theorem pollUintRendering : Obligations.PollUintRendering := by
  refine ⟨fun _ => pollUint_of_nonneg, fun _ => pollUint_of_le_neg_two, pollUint_neg_one, ?_⟩
  rw [pollUint_neg_one]
  omega

end Sys2Proof.Machine
end

section
/-! SUPPORT. Root delay, root dispersion and the Reference Identifier (42_root_refid.md R80 to R83): the model's reads of
the buffer in the statements' vocabulary, the milliseconds the host reads from a 16.16 field, and the kind of each
stratum class and version. -/

namespace Sys2Proof.Machine

/-! Reads of the buffer in the statements' vocabulary -/

/-- Four octets of the buffer read big-endian are `be32` (00_scope.md R7). -/
theorem beValue_octets_four (s : State) (a : Nat) : beValue (Memory.octets s.pkt a 4) = Spec.be32 s a := by
  rw [beValue_octets_eq_sum]
  simp [Finset.sum_range_succ, Spec.be32, State.octet]

theorem timestampAt_eq_tsToMs (s : State) (a : Nat) : timestampAt s a = Spec.tsToMs s a := by
  rw [timestampAt, beValue_octets_four, beValue_octets_four]
  rfl

theorem be32_lt (s : State) (a : Nat) : Spec.be32 s a < 256 ^ 4 := by
  rw [← beValue_octets_four]
  exact beValue_octets_lt s.pkt a 4

/-! Root delay and root dispersion -/

/-- The numerator of any 32-bit field fits the five result octets, so the host reads the exact rational: N / 8192 is the
16.16 field in milliseconds (42_root_refid.md R80). -/
theorem rootMillisOf_of_lt {raw : Nat} (status : Octet) (h : raw < 256 ^ 4) :
    rootMillisOf (status :: beOctets 5 (raw * 125)) = (raw : ℚ) / 65536 * 1000 := by
  have hfits : raw * 125 < 256 ^ 5 := by omega
  have hread : resultNat (status :: beOctets 5 (raw * 125)) = raw * 125 := beValue_beOctets_of_lt hfits
  rw [rootMillisOf, hread, Rat.mkRat_eq_div]
  push_cast
  ring

theorem rootMillisOf_be32 (s : State) (a : Nat) :
    rootMillisOf (0x00 :: beOctets 5 (Spec.be32 s a * 125)) = (Spec.be32 s a : ℚ) / 65536 * 1000 :=
  rootMillisOf_of_lt 0x00 (be32_lt s a)

/-! The Reference Identifier -/

/-- The kind by stratum class and version, as codes (42_root_refid.md R82). -/
theorem refIdCode_refIdKind (sc : StratumClass) (vn : Nat) :
    refIdCode (refIdKind sc vn) =
      if sc = .unspecified ∨ sc = .primaryReference then 0
      else if sc = .secondaryReference ∧ vn = 3 then 1 else if sc = .secondaryReference ∧ vn = 4 then 2 else 3 := by
  cases sc with
  | unspecified | primaryReference | reserved => rfl
  | secondaryReference =>
    simp only [refIdKind, apply_ite refIdCode, true_and]
    rfl

/-- The kind by the ranges of the stratum octet: the two classes up to 1 share a row (42_root_refid.md R82). -/
theorem refIdKind_stratumOf (octet1 vn : Nat) :
    refIdKind (stratumOf octet1) vn =
      if octet1 ≤ 1 then .ascii
      else if octet1 ≤ 15 then if vn = 3 then .ipv4 else if vn = 4 then .tstamp else .na
      else .na := by
  obtain rfl | rfl | habove : octet1 = 0 ∨ octet1 = 1 ∨ 1 < octet1 := by omega
  · rfl
  · rfl
  · rw [stratumOf, if_neg (by omega), if_neg (by omega), if_neg habove.not_ge]
    split <;> rfl

/-- Kind and payload as the rules give them (42_root_refid.md R82, R83). -/
theorem refId_eq (s : State) : Spec.refId s = (refIdCode (refIdKindOf s), refIdValue s (refIdKindOf s)) := by
  rw [refIdKindOf, refIdKind_stratumOf, versionOf_eq, Spec.refId]
  simp only [← beValue_octets_four, ← timestampAt_eq_tsToMs]
  split_ifs <;> rfl

/-! The statements -/

/-- Settles O22: the field read is `be32` at offset 4, and its numerator is what the host's reading needs. -/
theorem rdelAnswersRootDelay : Obligations.RdelAnswersRootDelay := by
  refine ⟨fun s => ⟨exec_of_resultOctets rfl rfl ?_, rootMillisOf_be32 s 4⟩,
    encodes_and_onlyLength_of_format_n (k := .rdel) rfl rfl⟩
  rw [resultOctets, beValue_octets_four, rootNumerator]

/-- Settles O23: as for RDEL, with the field at offset 8. -/
theorem rdispAnswersRootDispersion : Obligations.RdispAnswersRootDispersion := by
  refine ⟨fun s => ⟨exec_of_resultOctets rfl rfl ?_, rootMillisOf_be32 s 8⟩,
    encodes_and_onlyLength_of_format_n (k := .rdisp) rfl rfl⟩
  rw [resultOctets, beValue_octets_four, rootNumerator]

/-- Settles O24: `refId_eq` reads the answer by the rules, and `refIdCode_refIdKind` is the table of kinds; it holds of
any version number, so the bound on `vn` is not used. -/
theorem refidAnswersKindAndPayload : Obligations.RefidAnswersKindAndPayload := by
  refine ⟨fun s => exec_of_resultOctets rfl rfl ?_, fun sc vn _ => refIdCode_refIdKind sc vn,
    encodes_and_onlyLength_of_format_n (k := .refid) rfl rfl⟩
  rw [resultOctets, refId_eq, beOctets_one, List.singleton_append]

end Sys2Proof.Machine
end

section
/-! SUPPORT. TSDEC and TSENC (43_timestamp.md R91, R96): the bound of a decoded timestamp, the encodings with an offset
operand, and each command's outcomes. -/

namespace Sys2Proof

/-! The encodings with an offset operand -/

/-- The offset operand is the octet after the opcode (30_encoding.md R42). -/
theorem offsetAt1_cons_cons (op off : Octet) (operands : List Octet) : offsetAt1 (op :: off :: operands) = off := by
  simp [offsetAt1, octetsAt]

theorem encodes_tsdec (off : Octet) : Spec.Encodes [0x0B, off] (.tsdec off) := by
  have h : Spec.Encodes [0x0B, off] (.tsdec (offsetAt1 [0x0B, off])) := encodes_assemble (k := .tsdec) rfl rfl
  rwa [offsetAt1_cons_cons] at h

theorem encodes_tsenc (off : Octet) (ms : Millis) :
    Spec.Encodes (0x0D :: off :: beOctets 8 ms.toNat) (.tsenc off ms) := by
  have hms : millisAt (0x0D :: off :: beOctets 8 ms.toNat) 2 = ms := millisAt_of_drop rfl
  have h : Spec.Encodes (0x0D :: off :: beOctets 8 ms.toNat)
      (.tsenc (offsetAt1 (0x0D :: off :: beOctets 8 ms.toNat)) (millisAt (0x0D :: off :: beOctets 8 ms.toNat) 2)) :=
    encodes_assemble (k := .tsenc) rfl rfl
  rwa [offsetAt1_cons_cons, hms] at h

namespace Machine

/-! TSDEC -/

/-- The largest timestamp is all ones, and its fraction truncates to 999 ms (43_timestamp.md R91). -/
theorem tsToMs_le (s : State) (a : Nat) : Spec.tsToMs s a ≤ 4294967295999 := by
  have hseconds : Spec.be32 s a < 256 ^ 4 := be32_lt s a
  have hfraction : Spec.be32 s (a + 4) < 256 ^ 4 := be32_lt s (a + 4)
  rw [Spec.tsToMs]
  omega

theorem exec_tsdec_of_le {off : Octet} (h : off.toNat ≤ 40) (s : State) :
    exec (.tsdec off) s = .next { s with resp := some (0x00 :: beOctets 8 (Spec.tsToMs s off.toNat)) } := by
  refine exec_of_resultOctets (commandFault_tsdec_eq_none.mpr h) rfl ?_
  rw [resultOctets, timestampAt_eq_tsToMs]

theorem exec_tsdec_of_gt {off : Octet} (h : 40 < off.toNat) (s : State) :
    exec (.tsdec off) s = .next { s with resp := some [0x03] } := by
  have hfault : commandFault (.tsdec off) = some .errBounds := if_pos h
  exact exec_of_fault hfault s

/-! TSENC -/

/-- The offset is examined before the count (60_exceptions.md R132). -/
theorem exec_tsenc_of_gt {off : Octet} (h : 40 < off.toNat) (ms : Millis) (s : State) :
    exec (.tsenc off ms) s = .next { s with resp := some [0x03] } := by
  have hfault : commandFault (.tsenc off ms) = some .errBounds := if_pos h
  exact exec_of_fault hfault s

theorem exec_tsenc_of_limit_le {off : Octet} {ms : Millis} (hoff : off.toNat ≤ 40) (hms : Spec.limit ≤ ms.toNat)
    (s : State) : exec (.tsenc off ms) s = .next { s with resp := some [0x04] } := by
  have hfault : commandFault (.tsenc off ms) = some .errRange := (if_neg hoff.not_gt).trans (if_pos hms)
  exact exec_of_fault hfault s

/-- At a legal offset and below the limit TSENC stores the timestamp and answers OK. -/
theorem exec_tsenc_of_lt_limit {off : Octet} {ms : Millis} (hoff : off.toNat ≤ 40) (hms : ms.toNat < Spec.limit)
    (s : State) : exec (.tsenc off ms) s =
      .next ((s.setPkt (Memory.timestamp s.pkt off.toNat ms.toNat)).setResp (some [0x00])) :=
  execTsenc_of_lt hoff hms

/-! The statements -/

/-- Settles O25: TSDEC's two outcomes by its offset, and the bound of any decoded timestamp (`tsToMs_le`). -/
theorem tsdecAnswersMilliseconds : Obligations.TsdecAnswersMilliseconds := by
  exact ⟨fun s off h => ⟨exec_tsdec_of_le h s, tsToMs_le s off.toNat⟩, fun s off h => exec_tsdec_of_gt h s,
    encodes_tsdec, onlyLength_of_ofOctet (k := .tsdec) rfl⟩

/-- Settles O28: TSENC's three outcomes in the order of its checks, and the octets it stores read by
`Memory.get_timestamp`. -/
theorem tsencWritesTheTimestamp : Obligations.TsencWritesTheTimestamp := by
  refine ⟨fun s _ ms h => exec_tsenc_of_gt h ms s, fun s _ _ hoff hms => exec_tsenc_of_limit_le hoff hms s,
    fun s off ms hoff hms => ?_, encodes_tsenc, onlyLength_of_ofOctet (k := .tsenc) rfl⟩
  refine ⟨_, exec_tsenc_of_lt_limit hoff hms s, by simp, by simp, by simp, fun a => ?_⟩
  rw [State.octet_setResp, State.octet_setPkt, Memory.get_timestamp]
  rfl

end Machine

end Sys2Proof
end

section
/-! SUPPORT. VALID (44_validate.md R105): its two conditions read off RXLEN and PKT[0], and its answer. -/

namespace Sys2Proof.Machine

theorem modeCode_eq_four_iff (m : PacketMode) : modeCode m = 4 ↔ m = .server := by
  cases m <;> decide

/-- The field value 4 alone names the server's mode, as it is the one whose code is 4 (41_header_decode.md R67). -/
theorem modeOf_eq_server_iff (octet0 : Nat) : modeOf octet0 = .server ↔ octet0 % 8 = 4 := by
  rw [← modeCode_eq_four_iff, modeCode_modeOf]
  split <;> omega

theorem isValidReply_iff (rxlen octet0 : Nat) : isValidReply rxlen octet0 = true ↔ 48 ≤ rxlen ∧ octet0 % 8 = 4 := by
  rw [isValidReply, Bool.and_eq_true, decide_eq_true_iff, beq_iff_eq, modeOf_eq_server_iff, replyLength]

/-- Settles O29: `isValidReply_iff` says which two conditions the test is, and VALID stores nothing. -/
theorem validTestsLengthAndMode : Obligations.ValidTestsLengthAndMode := by
  refine ⟨fun s => exec_of_resultOctets rfl rfl ?_, encodes_and_onlyLength_of_format_n (k := .valid) rfl rfl⟩
  rw [resultOctets, beOctets_one, boolCode, apply_ite (BitVec.ofNat 8)]
  simp only [isValidReply_iff]
  rfl

end Sys2Proof.Machine
end

section
/-! SUPPORT. DELAY and OFFS (45_clock_model.md R111, R112): the command octets of format T read back, the range of both
results, and that the nine result octets hold any integer of that range exactly. -/

namespace Sys2Proof

/-! The encoding with four millisecond operands -/

/-- The octets of a command of format T, as the statements write them (30_encoding.md R41). -/
def formatT (op : Octet) (t1 t2 t3 t4 : Millis) : List Octet :=
  op :: (beOctets 8 t1.toNat ++ beOctets 8 t2.toNat ++ beOctets 8 t3.toNat ++ beOctets 8 t4.toNat)

/-- A millisecond operand is read back behind the octets before it, whatever follows (30_encoding.md R42). -/
theorem millisAt_append {before : List Octet} {start : Nat} (h : before.length = start) (t : Millis)
    (after : List Octet) : millisAt (before ++ (beOctets 8 t.toNat ++ after)) start = t := by
  apply millisAt_of_octetsAt
  rw [octetsAt, List.drop_left' h, List.take_left' (beOctets_length 8 _)]

/-- The four operands stand at the positions from which the decoder takes them. -/
theorem millisAt_formatT (op : Octet) (t1 t2 t3 t4 : Millis) :
    millisAt (formatT op t1 t2 t3 t4) 1 = t1 ∧ millisAt (formatT op t1 t2 t3 t4) 9 = t2 ∧
    millisAt (formatT op t1 t2 t3 t4) 17 = t3 ∧ millisAt (formatT op t1 t2 t3 t4) 25 = t4 := by
  have hfirst := millisAt_append (before := [op]) rfl t1
    (beOctets 8 t2.toNat ++ beOctets 8 t3.toNat ++ beOctets 8 t4.toNat)
  have hsecond := millisAt_append (before := op :: beOctets 8 t1.toNat) rfl t2
    (beOctets 8 t3.toNat ++ beOctets 8 t4.toNat)
  have hthird := millisAt_append (before := op :: (beOctets 8 t1.toNat ++ beOctets 8 t2.toNat)) rfl t3
    (beOctets 8 t4.toNat)
  exact ⟨hfirst, hsecond, hthird, millisAt_of_drop rfl⟩

theorem encodes_delay (t1 t2 t3 t4 : Millis) : Spec.Encodes (formatT 0x10 t1 t2 t3 t4) (.delay t1 t2 t3 t4) := by
  have h : Spec.Encodes (formatT 0x10 t1 t2 t3 t4) (Opcode.assemble .delay (formatT 0x10 t1 t2 t3 t4)) :=
    encodes_assemble rfl rfl
  obtain ⟨h1, h2, h3, h4⟩ := millisAt_formatT 0x10 t1 t2 t3 t4
  rwa [Opcode.assemble, h1, h2, h3, h4] at h

theorem encodes_offs (t1 t2 t3 t4 : Millis) : Spec.Encodes (formatT 0x11 t1 t2 t3 t4) (.offs t1 t2 t3 t4) := by
  have h : Spec.Encodes (formatT 0x11 t1 t2 t3 t4) (Opcode.assemble .offs (formatT 0x11 t1 t2 t3 t4)) :=
    encodes_assemble rfl rfl
  obtain ⟨h1, h2, h3, h4⟩ := millisAt_formatT 0x11 t1 t2 t3 t4
  rwa [Opcode.assemble, h1, h2, h3, h4] at h

namespace Machine

/-! The range of the results -/

theorem millisInt_bounds (t : Millis) : 0 ≤ millisInt t ∧ millisInt t < 2 ^ 64 := by
  have hlt : t.toNat < 2 ^ 64 := t.isLt
  rw [millisInt]
  omega

/-- Two differences of operands, each strictly within 2^64, sum to strictly within 2^65 (45_clock_model.md R112). -/
theorem offsetHalves_bounds (t1 t2 t3 t4 : Millis) :
    -2 ^ 65 < offsetHalves (millisInt t1) (millisInt t2) (millisInt t3) (millisInt t4) ∧
    offsetHalves (millisInt t1) (millisInt t2) (millisInt t3) (millisInt t4) < 2 ^ 65 := by
  have h1 := millisInt_bounds t1
  have h2 := millisInt_bounds t2
  have h3 := millisInt_bounds t3
  have h4 := millisInt_bounds t4
  rw [offsetHalves]
  omega

/-- Regrouped as (t4 - t1) + (t2 - t3), the delay is a sum of two differences like the offset numerator. -/
theorem roundTripDelay_eq_offsetHalves (t1 t2 t3 t4 : Int) : roundTripDelay t1 t2 t3 t4 = offsetHalves t1 t4 t2 t3 := by
  rw [roundTripDelay, offsetHalves]
  ring

theorem roundTripDelay_bounds (t1 t2 t3 t4 : Millis) :
    -2 ^ 65 < roundTripDelay (millisInt t1) (millisInt t2) (millisInt t3) (millisInt t4) ∧
    roundTripDelay (millisInt t1) (millisInt t2) (millisInt t3) (millisInt t4) < 2 ^ 65 := by
  rw [roundTripDelay_eq_offsetHalves]
  exact offsetHalves_bounds t1 t4 t2 t3

/-! The nine result octets -/

/-- Nine octets in two's complement hold every integer within 2^71 exactly (00_scope.md R6; 30_encoding.md R44). -/
theorem resultInt_clockOctets {z : Int} (status : Octet) (hlo : -2 ^ 71 ≤ z) (hhi : z < 2 ^ 71) :
    resultInt (status :: clockOctets z) = z := by
  have htc : tc 72 z < 256 ^ 9 := by rw [tc]; omega
  have hread : resultNat (status :: clockOctets z) = tc 72 z := beValue_beOctets_of_lt htc
  have hlen : (resultOf (status :: clockOctets z)).length = 9 := beOctets_length 9 _
  rw [resultInt, hread, hlen, tc]
  split <;> omega

/-- The host reads a result of the clock model's range as it is (45_clock_model.md R111). -/
theorem delayMillisOf_clockOctets {z : Int} (status : Octet) (h : -2 ^ 65 < z ∧ z < 2 ^ 65) :
    delayMillisOf (status :: clockOctets z) = (z : ℚ) := by
  rw [delayMillisOf, resultInt_clockOctets status (by omega) (by omega), Rat.mkRat_one]

/-- The host reads a result of the clock model's range as half milliseconds (45_clock_model.md R112). -/
theorem offsetMillisOf_clockOctets {z : Int} (status : Octet) (h : -2 ^ 65 < z ∧ z < 2 ^ 65) :
    offsetMillisOf (status :: clockOctets z) = (z : ℚ) / 2 := by
  rw [offsetMillisOf, resultInt_clockOctets status (by omega) (by omega), Rat.mkRat_eq_div, Nat.cast_ofNat]

/-! The statements -/

/-- Settles O30: the delay lies within 2^65 (`roundTripDelay_bounds`), so the nine octets give it back to the host. -/
theorem delayAnswersRoundTrip : Obligations.DelayAnswersRoundTrip := by
  refine ⟨fun s t1 t2 t3 t4 d hd => ?_, encodes_delay, onlyLength_of_ofOctet (k := .delay) rfl⟩
  subst hd
  have hbounds := roundTripDelay_bounds t1 t2 t3 t4
  exact ⟨exec_of_resultOctets rfl rfl rfl, delayMillisOf_clockOctets 0x00 hbounds, hbounds⟩

/-- Settles O31: the numerator lies within 2^65 (`offsetHalves_bounds`), so the host reads it back from the nine octets
and halves it exactly. -/
theorem offsAnswersOffsetNumerator : Obligations.OffsAnswersOffsetNumerator := by
  refine ⟨fun s t1 t2 t3 t4 n2 hn2 => ?_, encodes_offs, onlyLength_of_ofOctet (k := .offs) rfl⟩
  subst hn2
  have hbounds := offsetHalves_bounds t1 t2 t3 t4
  exact ⟨exec_of_resultOctets rfl rfl rfl, offsetMillisOf_clockOctets 0x00 hbounds, hbounds⟩

end Machine

end Sys2Proof
end

section
/-! SUPPORT. RXLOAD and TXREAD (46_transport_port.md R120, R121): the count and the datagram read back from the command,
the octets of the buffer after a partial delivery, and the whole buffer as the list of its octets. -/

namespace Sys2Proof

/-! The encoding with a count and a datagram -/

/-- The octets of a command of format X, as the statements write them (30_encoding.md R41). -/
def formatX (op : Octet) (n : Count) (data : List Octet) : List Octet := op :: (beOctets 2 n.toNat ++ data)

/-- The count operand is read back whole, whatever follows it (30_encoding.md R42). -/
theorem count_formatX (op : Octet) (n : Count) (data : List Octet) :
    BitVec.ofNat 16 (beValue (octetsAt (formatX op n data) 1 2)) = n := by
  have hoctets : octetsAt (formatX op n data) 1 2 = beOctets 2 n.toNat := List.take_left' (beOctets_length 2 _)
  rw [hoctets, beValue_beOctets_of_lt n.isLt, BitVec.ofNat_toNat, BitVec.setWidth_eq]

/-- The datagram is what stands behind the opcode and the two octets of the count. -/
theorem datagram_formatX (op : Octet) (n : Count) {data : List Octet} (h : data.length = 48) :
    octetsAt (formatX op n data) 3 48 = data := by
  have hdrop : (formatX op n data).drop 3 = data := List.drop_left' (l₁ := op :: beOctets 2 n.toNat) rfl
  rw [octetsAt, hdrop, List.take_of_length_le h.le]

theorem encodes_rxload (n : Count) {data : List Octet} (hdata : data.length = 48) :
    Spec.Encodes (formatX 0x20 n data) (.rxload n data) := by
  have hlen : (beOctets 2 n.toNat ++ data).length + 1 = Opcode.rxload.format.length := by
    rw [List.length_append, beOctets_length, hdata]
    rfl
  have h : Spec.Encodes (formatX 0x20 n data) (Opcode.assemble .rxload (formatX 0x20 n data)) :=
    encodes_assemble rfl hlen
  rwa [Opcode.assemble, count_formatX, datagram_formatX 0x20 n hdata] at h

namespace Machine

/-! The octets of the buffer -/

/-- A prefix stored at the start of the buffer replaces as many octets, and every other octet stays. -/
theorem Memory.get_store_take (m : List Host.Cell) {bs : List Octet} {k : Nat} (h : k ≤ bs.length) (x : Nat) :
    Memory.get (Memory.store m 0 (bs.take k)) x = if x < k then bs.getD x 0x00 else Memory.get m x := by
  by_cases hx : x < k
  · have hin : 0 ≤ x ∧ x - 0 < (bs.take k).length := by rw [List.length_take]; omega
    rw [if_pos hx, Memory.get_store, dif_pos hin, List.getElem_take, List.getD_eq_getElem _ _ (hx.trans_le h)]
    rfl
  · rw [if_neg hx, Memory.get_store_outside _ (.inr (by rw [List.length_take]; omega))]

theorem Memory.octets_eq_map (m : List Host.Cell) (a n : Nat) :
    Memory.octets m a n = (List.range n).map fun i => Memory.get m (a + i) := by
  apply List.ext_getElem
  · simp
  · intro i _ _
    rw [Memory.octets_getElem, List.getElem_map, List.getElem_range]

theorem octets_zero_eq_map_octet (s : State) (n : Nat) : Memory.octets s.pkt 0 n = (List.range n).map s.octet := by
  simp only [Memory.octets_eq_map, Nat.zero_add]
  rfl

/-! The statements -/

/-- Settles O32: no operand of RXLOAD faults, and the octets it stores are read by `Memory.get_store_take`. -/
theorem rxloadDeliversTheDatagram : Obligations.RxloadDeliversTheDatagram := by
  refine ⟨fun s n data hdata => ?_, fun n _ hdata => encodes_rxload n hdata, onlyLength_of_ofOctet (k := .rxload) rfl⟩
  have hprefix : min n.toNat 48 ≤ data.length := by rw [hdata]; exact min_le_right _ _
  refine ⟨_, exec_of_no_fault rfl s, rfl, rfl, rfl, fun a => ?_⟩
  exact Memory.get_store_take s.pkt hprefix a

/-- Settles O33: TXREAD stores nothing, and its result is the buffer octet by octet (`octets_zero_eq_map_octet`). -/
theorem txreadAnswersTheBuffer : Obligations.TxreadAnswersTheBuffer :=
  ⟨fun s => exec_of_resultOctets rfl rfl (octets_zero_eq_map_octet s 48),
    encodes_and_onlyLength_of_format_n (k := .txread) rfl rfl⟩

end Machine

end Sys2Proof
end

section
/-! SUPPORT. The faults of a presented command (60_exceptions.md R130 to R132): one fault or none for every octet string,
the status that it answers, and what its step does. -/

namespace Sys2Proof.Machine

/-! The fault of an octet string -/

/-- The fault that a presented octet string answers: the decoder's, and for a command the one of its operands. -/
def presentedFault (c : List Octet) : Option CommandFault :=
  match decode c with
  | .ok i => commandFault i
  | .error f => some f

theorem presentedFault_of_ok {c : List Octet} {i : Instr} (h : decode c = .ok i) :
    presentedFault c = commandFault i := by
  rw [presentedFault, h]

theorem presentedFault_of_error {c : List Octet} {f : CommandFault} (h : decode c = .error f) :
    presentedFault c = some f := by
  rw [presentedFault, h]

/-- The status octet of a response, by the fault answered if there is one (60_exceptions.md R130). -/
def statusOf (fault : Option CommandFault) : Octet := fault.elim okStatus faultStatus

theorem statusOf_eq_okStatus_iff {fault : Option CommandFault} : statusOf fault = okStatus ↔ fault = none := by
  cases fault with
  | none => simp [statusOf]
  | some f => simpa [statusOf] using faultStatus_ne_okStatus f

theorem statusOf_init (now : Millis) :
    statusOf (commandFault (.init now)) = if Spec.limit ≤ now.toNat then 0x04 else 0x00 :=
  apply_ite statusOf _ _ _

theorem statusOf_tsdec (off : Octet) :
    statusOf (commandFault (.tsdec off)) = if 40 < off.toNat then 0x03 else 0x00 :=
  apply_ite statusOf _ _ _

/-- The offset is examined before the count (60_exceptions.md R132). -/
theorem statusOf_tsenc (off : Octet) (ms : Millis) :
    statusOf (commandFault (.tsenc off ms)) =
      if 40 < off.toNat then 0x03 else if Spec.limit ≤ ms.toNat then 0x04 else 0x00 :=
  (apply_ite statusOf _ _ _).trans (congrArg (ite _ _) (apply_ite statusOf _ _ _))

/-! The statements' status, by the priority of 60_exceptions.md R132 -/

theorem status_of_ofOctet_none {op : Octet} (h : Opcode.ofOctet op = none) (operands : List Octet) :
    Spec.status (op :: operands) = faultStatus .errOpcode := by
  rw [Spec.status, opcodeLengths_lookup, h]; rfl

theorem status_of_length_ne {op : Octet} {operands : List Octet} {k : Opcode} (h : Opcode.ofOctet op = some k)
    (hlen : operands.length + 1 ≠ k.format.length) : Spec.status (op :: operands) = faultStatus .errLength := by
  rw [Spec.status, opcodeLengths_lookup, h]; exact if_pos hlen

theorem beValue_beOctets_millis (ms : Millis) : beValue (beOctets 8 ms.toNat) = ms.toNat :=
  beValue_beOctets_of_lt ms.isLt

/-- At the length of its format a command's status is that of the fault its operands raise. -/
theorem status_encode {i : Instr} (hlen : (encode i).length = i.opcode.format.length) :
    Spec.status (encode i) = statusOf (commandFault i) := by
  have hlookup : Spec.opcodeLengths.lookup i.opcode.number.toNat = some i.opcode.format.length := by
    cases i <;> rfl
  rw [encode, Spec.status, hlookup]
  refine (if_neg (not_not.mpr hlen)).trans ?_
  cases i with
  | init now =>
    rw [statusOf_init]
    simp [Instr.opcode, Opcode.number, Instr.operandOctets, beValue_beOctets_millis]
  | tsdec off =>
    rw [statusOf_tsdec]
    simp [Instr.opcode, Opcode.number, Instr.operandOctets]
  | tsenc off ms =>
    rw [statusOf_tsenc]
    simp [Instr.opcode, Opcode.number, Instr.operandOctets, beValue_beOctets_millis]
  | _ => rfl

/-- The decoder's faults come before those of the operands, as R132 orders the causes. -/
theorem status_eq (c : List Octet) : Spec.status c = statusOf (presentedFault c) := by
  cases c with
  | nil => rfl
  | cons op operands =>
    cases hk : Opcode.ofOctet op with
    | none => rw [status_of_ofOctet_none hk, presentedFault_of_error (decode_of_ofOctet_none hk operands)]; rfl
    | some k =>
      by_cases hlen : operands.length + 1 = k.format.length
      · have hencode : encode (k.assemble (op :: operands)) = op :: operands := encode_assemble hk hlen
        rw [presentedFault_of_ok (decode_of_length_eq hk hlen), ← status_encode, hencode]
        rwa [hencode, Opcode.opcode_assemble]
      · rw [status_of_length_ne hk hlen, presentedFault_of_error (decode_of_length_ne hk hlen)]; rfl

/-! The step of a presented command -/

theorem step_of_decode_ok {s : State} {c : List Octet} {rest : List HostAction} {i : Instr}
    (hport : s.port = .command c :: rest) (h : decode c = .ok i) : step s = exec i (s.setPort rest) := by
  simp [step, hport, h, acceptAction]

theorem step_of_presentedFault_some {s : State} {c : List Octet} {rest : List HostAction} {f : CommandFault}
    (hport : s.port = .command c :: rest) (h : presentedFault c = some f) :
    step s = .next { s with port := rest, resp := some [faultStatus f] } := by
  cases hc : decode c with
  | error f' =>
    obtain rfl : f' = f := Option.some.inj ((presentedFault_of_error hc).symm.trans h)
    exact step_of_decode_error hport hc
  | ok i =>
    rw [step_of_decode_ok hport hc]
    exact exec_of_fault ((presentedFault_of_ok hc).symm.trans h) _

theorem step_of_presentedFault_none {s : State} {c : List Octet} {rest : List HostAction}
    (hport : s.port = .command c :: rest) (h : presentedFault c = none) :
    ∃ i, step s = answer (storeOf i (s.setPort rest)) (resultOctets i (s.setPort rest)) := by
  cases hc : decode c with
  | error f => simp [presentedFault_of_error hc] at h
  | ok i =>
    refine ⟨i, ?_⟩
    rw [step_of_decode_ok hport hc]
    exact exec_of_no_fault ((presentedFault_of_ok hc).symm.trans h) _

theorem storeOf_port (i : Instr) (s : State) : (storeOf i s).port = s.port := by
  cases i with
  | init | tsenc | rxload => simp [storeOf]
  | _ => rfl

/-- Settles O34: the status is that of the presented fault, whose step answers its octet alone, and without one the
command answers OK. -/
theorem oneStatusByPriority : Obligations.OneStatusByPriority := by
  intro s c rest hport
  rw [status_eq]
  cases hfault : presentedFault c with
  | some f => exact ⟨_, [], step_of_presentedFault_some hport hfault, rfl, rfl, fun _ => rfl⟩
  | none =>
    obtain ⟨i, hstep⟩ := step_of_presentedFault_none hport hfault
    exact ⟨_, _, hstep, storeOf_port i _, rfl, fun hne => absurd rfl hne⟩

/-! No command reads the response port, and no step that takes a host action does -/

theorem storeOf_setResp (i : Instr) (s : State) (r : Option (List Octet)) :
    storeOf i (s.setResp r) = (storeOf i s).setResp r := by
  cases i <;> rfl

theorem resultOctets_setResp (i : Instr) (s : State) (r : Option (List Octet)) :
    resultOctets i (s.setResp r) = resultOctets i s := by
  cases i <;> rfl

theorem exec_setResp (i : Instr) (s : State) (r : Option (List Octet)) : exec i (s.setResp r) = exec i s := by
  cases hf : commandFault i with
  | some f => rw [exec_of_fault hf, exec_of_fault hf, raise_eq, raise_eq, State.setResp_setResp]
  | none =>
    rw [exec_of_no_fault hf, exec_of_no_fault hf, storeOf_setResp, resultOctets_setResp, answer_eq, answer_eq,
      State.setResp_setResp]

theorem step_setResp {s : State} (h : s.port ≠ []) (r : Option (List Octet)) : step (s.setResp r) = step s := by
  cases hport : s.port with
  | nil => exact absurd hport h
  | cons a rest =>
    cases a with
    | reset => simp [step, hport, resetBlock]
    | command c =>
      have hport' : (s.setResp r).port = .command c :: rest := hport
      cases hc : decode c with
      | ok i =>
        rw [step_of_decode_ok hport' hc, step_of_decode_ok hport hc]
        exact exec_setResp i (s.setPort rest) r
      | error f => rw [step_of_decode_error hport' hc, step_of_decode_error hport hc]; rfl

/-- Settles O35: a fault changes the two ports alone, and neither a command (`exec_setResp`) nor the next step
(`step_setResp`) reads the response. -/
theorem faultLeavesNoTrace : Obligations.FaultLeavesNoTrace := by
  refine ⟨fun s c rest hport hne => ?_, exec_setResp⟩
  rw [status_eq] at hne ⊢
  cases hfault : presentedFault c with
  | none => exact absurd (statusOf_eq_okStatus_iff.mpr hfault) hne
  | some f =>
    refine ⟨_, step_of_presentedFault_some hport hfault, rfl, fun hrest => ?_⟩
    exact step_setResp (s := s.setPort rest) hrest (some [faultStatus f])

end Sys2Proof.Machine
end

section
/-! SUPPORT. The decoder and the encoder as inverses of each other (30_encoding.md R40 to R43): the inversion of an
accepted octet string, and the encoding of every well-formed command. -/

namespace Sys2Proof

/-- An accepted octet string is an opcode with operands of its format's length, and the command is assembled from it. -/
theorem exists_of_decode_ok {c : List Octet} {i : Instr} (h : decode c = .ok i) :
    ∃ op operands k, c = op :: operands ∧ Opcode.ofOctet op = some k ∧ operands.length + 1 = k.format.length ∧
      i = k.assemble c := by
  cases c with
  | nil => simp [decode_nil] at h
  | cons op operands =>
    cases hk : Opcode.ofOctet op with
    | none => simp [decode_of_ofOctet_none hk] at h
    | some k =>
      by_cases hlen : operands.length + 1 = k.format.length
      · rw [decode_of_length_eq hk hlen] at h
        exact ⟨op, operands, k, rfl, hk, hlen, (Except.ok.inj h).symm⟩
      · simp [decode_of_length_ne hk hlen] at h

/-- Only RXLOAD could be ill-formed, and at its length the decoder takes 48 data octets. -/
theorem wellFormed_assemble {k : Opcode} {c : List Octet} (h : c.length = k.format.length) :
    (k.assemble c).wellFormed = true := by
  cases k with
  | rxload =>
    have hc : c.length = 51 := h
    exact beq_iff_eq.mpr (octetsAt_length (start := 3) (len := 48) (by omega))
  | _ => rfl

theorem encodes_ms2cal (ms : Millis) : Spec.Encodes (0x0C :: beOctets 8 ms.toNat) (.ms2cal ms) := by
  have hms : millisAt (0x0C :: beOctets 8 ms.toNat) 1 = ms := millisAt_of_drop rfl
  have h : Spec.Encodes (0x0C :: beOctets 8 ms.toNat) (.ms2cal (millisAt (0x0C :: beOctets 8 ms.toNat) 1)) :=
    encodes_assemble (k := .ms2cal) rfl rfl
  rwa [hms] at h

theorem decode_encode_of_encodes {w : List Octet} {i : Instr} (h : Spec.Encodes w i) : decode (encode i) = .ok i := by
  obtain ⟨rfl, hdecode⟩ := h
  exact hdecode

/-- Settles O6: each command with operands has its encoding lemma, and a command of format N is its opcode alone. -/
theorem decodeOfEncode : Obligations.DecodeOfEncode := by
  intro i hwf
  cases i with
  | init now => exact decode_encode_of_encodes (encodes_init now)
  | tsdec off => exact decode_encode_of_encodes (encodes_tsdec off)
  | ms2cal ms => exact decode_encode_of_encodes (encodes_ms2cal ms)
  | tsenc off ms => exact decode_encode_of_encodes (encodes_tsenc off ms)
  | delay t1 t2 t3 t4 => exact decode_encode_of_encodes (encodes_delay t1 t2 t3 t4)
  | offs t1 t2 t3 t4 => exact decode_encode_of_encodes (encodes_offs t1 t2 t3 t4)
  | rxload n data =>
    have hdata : data.length = 48 := by simpa [Instr.wellFormed, Config.pktLen] using hwf
    exact decode_encode_of_encodes (encodes_rxload n hdata)
  | li | vn | mode | strat | poll | prec | rdel | rdisp | refid | valid | txread => rfl

/-- Settles O7: an accepted string is assembled at its format's length (`exists_of_decode_ok`), where encoding gives the
octets back (`encode_assemble`). -/
theorem encodeOfDecode : Obligations.EncodeOfDecode := by
  intro c i h
  obtain ⟨op, operands, k, rfl, hk, hlen, rfl⟩ := exists_of_decode_ok h
  exact ⟨wellFormed_assemble hlen, encode_assemble hk hlen⟩

/-- Settles O5: the words of 95_test_vectors.md, decoded by evaluation. -/
theorem wordsOfTheSpecDecode : Obligations.WordsOfTheSpecDecode :=
  ⟨rfl, rfl, rfl, rfl, rfl, rfl, rfl, rfl⟩

end Sys2Proof
end

section
/-! SUPPORT. What every command keeps (10_state.md sections 1, 2 and 5; 30_encoding.md R44): the length of its result,
the octets it leaves alone, and that it depends on the block only. -/

namespace Sys2Proof.Machine

/-! The length of the responses -/

theorem civilOctets_length (c : Civil) : (civilOctets c).length = 11 := by
  simp [civilOctets]

/-- With its status octet a result has the length of the response table (30_encoding.md R44). -/
theorem resultOctets_length (i : Instr) (s : State) : (resultOctets i s).length + 1 = Spec.responseLength i := by
  cases i with
  | ms2cal ms => simp [resultOctets, Spec.responseLength, civilOctets_length]
  | rdel | rdisp | tsdec | delay | offs => exact congrArg (· + 1) (beOctets_length _ _)
  | refid => simp [resultOctets, Spec.responseLength]
  | txread => exact congrArg (· + 1) (Memory.octets_length _ _ _)
  | init | tsenc | rxload | li | vn | mode | strat | poll | prec | valid => rfl

/-- Settles O39: a fault answers its status alone, and every other response has the length of its result. -/
theorem responseLengths : Obligations.ResponseLengths := by
  intro i s t h
  obtain ⟨f, -, rfl⟩ | ⟨-, rfl⟩ := exec_cases h
  · exact ⟨faultStatus f, [], rfl, fun hok => absurd hok (faultStatus_ne_okStatus f), fun _ => rfl⟩
  · exact ⟨okStatus, resultOctets i s, rfl, fun _ => resultOctets_length i s, fun hne => absurd rfl hne⟩

/-! The octets a command leaves alone -/

theorem storeOf_octet_of_not_writes {i : Instr} {a : Nat} (h : ¬ Spec.writes i a) (s : State) :
    (storeOf i s).octet a = s.octet a := by
  cases i with
  | init now =>
    have ha : 48 ≤ a := not_lt.mp h
    change Memory.get (Memory.request s.pkt now.toNat) a = Memory.get s.pkt a
    rw [Memory.get_request, if_neg (by omega), if_neg (by omega), if_neg (by omega)]
  | tsenc off ms => exact (Memory.get_timestamp s.pkt off.toNat ms.toNat a).trans (if_neg h)
  | rxload n data =>
    have ha : min n.toNat 48 ≤ a := not_lt.mp h
    exact Memory.get_store_outside s.pkt (.inr (by rw [List.length_take]; omega))
  | _ => rfl

/-- The write set of a command without fault lies inside the buffer (20_memory.md R27). -/
theorem lt_of_writes {i : Instr} {a : Nat} (hfault : commandFault i = none) (h : Spec.writes i a) : a < 48 := by
  cases i with
  | init now => exact h
  | tsenc off ms =>
    obtain ⟨hoff, -⟩ : off.toNat ≤ 40 ∧ _ := commandFault_tsenc_eq_none.mp hfault
    obtain ⟨-, ha⟩ : off.toNat ≤ a ∧ a < off.toNat + 8 := h
    omega
  | rxload n data => exact lt_of_lt_of_le h (min_le_right _ _)
  | _ => exact h.elim

theorem octet_of_exec_of_not_writes {i : Instr} {s t : State} {a : Nat} (h : exec i s = .next t)
    (ha : ¬ Spec.writes i a) : t.octet a = s.octet a := by
  obtain ⟨f, -, rfl⟩ | ⟨-, rfl⟩ := exec_cases h
  · rfl
  · exact storeOf_octet_of_not_writes ha s

/-- A fault writes nothing, and any other command stores inside the buffer only (10_state.md R10). -/
theorem octet_of_exec_above {i : Instr} {s t : State} {a : Nat} (h : exec i s = .next t) (ha : 48 ≤ a) :
    t.octet a = s.octet a := by
  obtain ⟨f, -, rfl⟩ | ⟨hfault, rfl⟩ := exec_cases h
  · rfl
  · exact storeOf_octet_of_not_writes (fun hw => ha.not_gt (lt_of_writes hfault hw)) s

theorem port_of_exec {i : Instr} {s t : State} (h : exec i s = .next t) : t.port = s.port := by
  obtain ⟨f, -, rfl⟩ | ⟨-, rfl⟩ := exec_cases h
  · rfl
  · exact storeOf_port i s

/-- A response that is not OK is a fault's, which writes nothing (60_exceptions.md R131). -/
theorem block_of_exec_of_status_ne {i : Instr} {s t : State} {r : List Octet} (h : exec i s = .next t)
    (hresp : t.resp = some r) (hstatus : r.head? ≠ some 0x00) : t.pkt = s.pkt ∧ t.rxlen = s.rxlen := by
  obtain ⟨f, -, rfl⟩ | ⟨-, rfl⟩ := exec_cases h
  · exact ⟨rfl, rfl⟩
  · obtain rfl : okStatus :: resultOctets i s = r := Option.some.inj hresp
    exact absurd rfl hstatus

/-- Settles O37: what is stored lies in the write set (`storeOf_octet_of_not_writes`), and a fault stores nothing. -/
theorem writeSets : Obligations.WriteSets := by
  intro i s t h
  exact ⟨fun a ha => octet_of_exec_of_not_writes h ha, fun hinit hload => rxlen_of_exec_of_ne hinit hload h,
    port_of_exec h, fun r hresp hstatus => block_of_exec_of_status_ne h hresp hstatus⟩

/-! Two states that agree on the block -/

/-- Two states that the spec does not tell apart: the same octets of PKT and the same RXLEN (10_state.md R10, R11). -/
def SameBlock (s s' : State) : Prop := (∀ a, a < 48 → s.octet a = s'.octet a) ∧ s.rxlen = s'.rxlen

theorem SameBlock.octets {s s' : State} (h : SameBlock s s') {a n : Nat} (hin : a + n ≤ 48) :
    Memory.octets s.pkt a n = Memory.octets s'.pkt a n :=
  Memory.octets_congr fun i _ hi => h.1 i (by omega)

theorem SameBlock.timestampAt {s s' : State} (h : SameBlock s s') {a : Nat} (ha : a ≤ 40) :
    timestampAt s a = timestampAt s' a := by
  rw [Machine.timestampAt, Machine.timestampAt, h.octets (by omega), h.octets (by omega)]

theorem SameBlock.refIdKindOf {s s' : State} (h : SameBlock s s') : refIdKindOf s = refIdKindOf s' := by
  rw [Machine.refIdKindOf, Machine.refIdKindOf, h.1 0 (by decide), h.1 1 (by decide)]

theorem SameBlock.refIdValue {s s' : State} (h : SameBlock s s') (kind : RefIdKind) :
    refIdValue s kind = refIdValue s' kind := by
  cases kind with
  | ascii | ipv4 => exact congrArg beValue (h.octets (by decide))
  | tstamp => exact h.timestampAt (by decide)
  | na => rfl

theorem SameBlock.resultOctets {i : Instr} {s s' : State} (h : SameBlock s s') (hfault : commandFault i = none) :
    resultOctets i s = resultOctets i s' := by
  cases i with
  | li | vn | mode => rw [Machine.resultOctets, Machine.resultOctets, h.1 0 (by decide)]
  | strat => rw [Machine.resultOctets, Machine.resultOctets, h.1 1 (by decide)]
  | poll => rw [Machine.resultOctets, Machine.resultOctets, h.1 2 (by decide)]
  | prec => rw [Machine.resultOctets, Machine.resultOctets, h.1 3 (by decide)]
  | rdel | rdisp => rw [Machine.resultOctets, Machine.resultOctets, h.octets (by decide)]
  | refid => rw [Machine.resultOctets, Machine.resultOctets, h.refIdKindOf, h.refIdValue]
  | tsdec off =>
    rw [Machine.resultOctets, Machine.resultOctets, h.timestampAt (commandFault_tsdec_eq_none.mp hfault)]
  | valid => rw [Machine.resultOctets, Machine.resultOctets, h.1 0 (by decide), h.2]
  | txread => exact h.octets (by decide)
  | init | ms2cal | tsenc | delay | offs | rxload => rfl

/-- An octet after the command depends on that octet before it, and on the operands. -/
theorem storeOf_octet_congr (i : Instr) {s s' : State} {a : Nat} (h : s.octet a = s'.octet a) :
    (storeOf i s).octet a = (storeOf i s').octet a := by
  have hget : Memory.get s.pkt a = Memory.get s'.pkt a := h
  cases i with
  | init now =>
    change Memory.get (Memory.request s.pkt _) a = Memory.get (Memory.request s'.pkt _) a
    rw [Memory.get_request, Memory.get_request, hget]
  | tsenc off ms =>
    change Memory.get (Memory.timestamp s.pkt _ _) a = Memory.get (Memory.timestamp s'.pkt _ _) a
    rw [Memory.get_timestamp, Memory.get_timestamp, hget]
  | rxload n data =>
    change Memory.get (Memory.store s.pkt _ _) a = Memory.get (Memory.store s'.pkt _ _) a
    rw [Memory.get_store, Memory.get_store, hget]
  | _ => exact h

theorem SameBlock.storeOf {s s' : State} (h : SameBlock s s') (i : Instr) : SameBlock (storeOf i s) (storeOf i s') := by
  refine ⟨fun a ha => storeOf_octet_congr i (h.1 a ha), ?_⟩
  cases i with
  | init | rxload => simp only [Machine.storeOf, State.setRxlen_rxlen]
  | tsenc => simpa only [Machine.storeOf, State.setPkt_rxlen] using h.2
  | _ => exact h.2

theorem SameBlock.exec {s s' : State} (h : SameBlock s s') (i : Instr) :
    ∃ t t', exec i s = .next t ∧ exec i s' = .next t' ∧ t.resp = t'.resp ∧ SameBlock t t' := by
  cases hfault : commandFault i with
  | some f => exact ⟨_, _, exec_of_fault hfault s, exec_of_fault hfault s', rfl, h⟩
  | none =>
    refine ⟨_, _, exec_of_no_fault hfault s, exec_of_no_fault hfault s', ?_, h.storeOf i⟩
    rw [State.setResp_resp, State.setResp_resp, h.resultOctets hfault]

/-- Settles O38: what a command answers and stores follows from the block (`SameBlock.exec`), and it stores nothing
above the buffer (`octet_of_exec_above`). -/
theorem commandsSeeOnlyTheBlock : Obligations.CommandsSeeOnlyTheBlock := by
  refine ⟨fun i s s' hoctets hrxlen => ?_, fun i s t h => ⟨fun a ha => octet_of_exec_above h ha, port_of_exec h⟩⟩
  obtain ⟨t, t', ht, ht', hresp, hblock, hlen⟩ := SameBlock.exec ⟨hoctets, hrxlen⟩ i
  exact ⟨t, t', ht, ht', hresp, hlen, hblock⟩

end Sys2Proof.Machine
end

section
/-! SUPPORT. Whole runs (20_memory.md section 4; 70_reset_and_hazards.md section 1): what a step can do, that every step
goes on and keeps the invariant, and what the block answers after reset. -/

namespace Sys2Proof.Machine

/-! What a step can do -/

theorem step_of_port_nil {s : State} (h : s.port = []) : step s = .next s := by
  rw [step, h]
  rfl

theorem step_of_reset {s : State} {rest : List HostAction} (h : s.port = .reset :: rest) :
    step s = .next (resetBlock s) := by
  rw [step, h]

/-- A step is idle, a reset, a decoder fault's answer, or one command (20_memory.md R30; 30_encoding.md R47). -/
theorem step_forms (s : State) :
    step s = .next s ∨ step s = .next (resetBlock s) ∨
    (∃ rest f, step s = .next ((s.setPort rest).setResp (some [faultStatus f]))) ∨
    (∃ rest i, step s = exec i (s.setPort rest)) := by
  cases hport : s.port with
  | nil => exact .inl (step_of_port_nil hport)
  | cons action rest =>
    cases action with
    | reset => exact .inr (.inl (step_of_reset hport))
    | command c =>
      cases hc : decode c with
      | error f => exact .inr (.inr (.inl ⟨rest, f, step_of_decode_error hport hc⟩))
      | ok i => exact .inr (.inr (.inr ⟨rest, i, step_of_decode_ok hport hc⟩))

/-! No run stops -/

theorem exec_completes (i : Instr) (s : State) : Completes (exec i s) := by
  cases hfault : commandFault i with
  | some f => exact ⟨_, exec_of_fault hfault s⟩
  | none => exact ⟨_, exec_of_no_fault hfault s⟩

theorem step_completes (s : State) : Completes (step s) := by
  obtain hstep | hstep | ⟨_, _, hstep⟩ | ⟨rest, i, hstep⟩ := step_forms s
  · exact ⟨_, hstep⟩
  · exact ⟨_, hstep⟩
  · exact ⟨_, hstep⟩
  · exact hstep ▸ exec_completes i (s.setPort rest)

theorem run_succ_of_step {s t : State} (k : Nat) (h : step s = .next t) :
    Host.Core.run core (k + 1) s = Host.Core.run core k t := by
  have hcore : core.step s = .next t := h
  simp only [Host.Core.run, hcore]

/-- Settles O42: by induction on the number of steps, as every step completes (`step_completes`). -/
theorem everyRunGoesOn : Obligations.EveryRunGoesOn := by
  intro k
  induction k with
  | zero => exact fun s => ⟨s, rfl⟩
  | succ k ih =>
    intro s
    obtain ⟨t, hstep⟩ := step_completes s
    rw [run_succ_of_step k hstep]
    exact ih t

/-! The invariant -/

theorem Memory.wf_timestamp {m : List Host.Cell} {a : Nat} (ms : Nat) (ha : a ≤ 40) (h : Memory.wf m = true) :
    Memory.wf (Memory.timestamp m a ms) = true := by
  have hseconds : a + (beOctets 4 (msToSeconds ms)).length ≤ 48 := by rw [beOctets_length]; omega
  have hfraction : a + 4 + (beOctets 4 (msToFraction ms)).length ≤ 48 := by rw [beOctets_length]; omega
  exact Memory.wf_store hfraction (Memory.wf_store hseconds h)

theorem Memory.wf_request {m : List Host.Cell} (ms : Nat) (h : Memory.wf m = true) :
    Memory.wf (Memory.request m ms) = true := by
  have hzeros : Memory.wf (Memory.store m 0 (List.replicate Config.pktLen 0x00)) = true :=
    Memory.wf_store (by rw [List.length_replicate]; decide) h
  have hheader : 0 + [requestHeader].length ≤ 48 := by decide
  exact Memory.wf_timestamp ms (by decide) (Memory.wf_store hheader hzeros)

theorem wf_storeOf {i : Instr} {s : State} (hfault : commandFault i = none) (h : Memory.wf s.pkt = true) :
    Memory.wf (storeOf i s).pkt = true := by
  cases i with
  | init now => exact Memory.wf_request now.toNat h
  | tsenc off ms =>
    obtain ⟨hoff, -⟩ : off.toNat ≤ 40 ∧ _ := commandFault_tsenc_eq_none.mp hfault
    exact Memory.wf_timestamp ms.toNat hoff h
  | rxload n data =>
    have hin : 0 + (data.take (min n.toNat 48)).length ≤ 48 := by rw [List.length_take]; omega
    exact Memory.wf_store hin h
  | _ => exact h

theorem responseWf_faultStatus (f : CommandFault) : responseWf [faultStatus f] = true := by
  cases f <;> decide

/-- The lengths of the response table are those of a deliverable response (30_encoding.md R44). -/
theorem responseWf_resultOctets (i : Instr) (s : State) : responseWf (okStatus :: resultOctets i s) = true := by
  have hlen : (resultOctets i s).length = Spec.responseLength i - 1 := by
    rw [← resultOctets_length i s, Nat.add_sub_cancel]
  rw [responseWf, if_pos (show okStatus = 0x00 from rfl), hlen]
  cases i <;> rfl

theorem inv_reset : Inv State.reset := ⟨rfl, rfl⟩

theorem exec_keeps_inv {i : Instr} {s t : State} (hinv : Inv s) (h : exec i s = .next t) : Inv t := by
  obtain ⟨hwf, -⟩ := hinv
  obtain ⟨f, -, rfl⟩ | ⟨hfault, rfl⟩ := exec_cases h
  · exact ⟨hwf, responseWf_faultStatus f⟩
  · exact ⟨wf_storeOf hfault hwf, responseWf_resultOctets i s⟩

/-- Settles O40: nothing is listed in the buffer and no response delivered. -/
theorem resetMeetsTheInvariant : Obligations.ResetMeetsTheInvariant := inv_reset

/-- Settles O41: by the four forms of a step (`step_forms`), with `exec_keeps_inv` for the one that runs a command. -/
theorem stepKeepsTheInvariant : Obligations.StepKeepsTheInvariant := by
  intro s t hinv h
  obtain hstep | hstep | ⟨rest, f, hstep⟩ | ⟨rest, i, hstep⟩ := step_forms s <;> rw [hstep] at h
  · exact Host.Outcome.next.inj h ▸ hinv
  · exact Host.Outcome.next.inj h ▸ inv_reset
  · exact Host.Outcome.next.inj h ▸ ⟨hinv.1, responseWf_faultStatus f⟩
  · exact exec_keeps_inv (s := s.setPort rest) hinv h

/-! Reset and the step -/

/-- Settles O1: the reset action leaves the block as `State.reset` has it. -/
theorem resetClearsBufferAndLength : Obligations.ResetClearsBufferAndLength := by
  refine ⟨State.octet_reset, State.reset_rxlen, fun s rest hport => ?_⟩
  refine ⟨resetBlock s, step_of_reset hport, fun _ => rfl, resetBlock_rxlen s, ?_, resetBlock_resp s⟩
  rw [resetBlock_port, hport, List.tail_cons]

theorem tsToMs_reset (a : Nat) : Spec.tsToMs State.reset a = 0 := by
  simp [Spec.tsToMs, Spec.be32]

/-- Settles O2: no decode command stores anything, and each field of a zero buffer has the code or number 0. -/
theorem decodersAtReset : Obligations.DecodersAtReset := by
  refine ⟨fun i hi => ?_, fun i hi => ?_, exec_of_resultOctets rfl rfl rfl, fun off hoff => ?_⟩
  · fin_cases hi <;> exact exec_of_resultOctets rfl rfl rfl
  · fin_cases hi <;> exact exec_of_resultOctets rfl rfl rfl
  · rw [exec_tsdec_of_le hoff, tsToMs_reset]
    rfl

/-- Settles O3: `step_of_decode_ok`, with the port as the statement writes it. -/
theorem stepRunsTheDecodedCommand : Obligations.StepRunsTheDecodedCommand :=
  fun _ _ _ _ => step_of_decode_ok

/-- Settles O4: an empty port is the idle step (60_exceptions.md R138; log 7). -/
theorem idleStepKeepsTheState : Obligations.IdleStepKeepsTheState :=
  fun _ => step_of_port_nil

/-- Settles O11: each example line of R48 read by evaluation. -/
theorem exampleLinesOfText : Obligations.ExampleLinesOfText := by
  refine ⟨?_, ?_, ?_, ?_, ?_, ?_⟩ <;> decide

end Sys2Proof.Machine
end

section
/-! SUPPORT. Timestamps through the buffer (43_timestamp.md section Round trip and range): a field that holds an encoded
count, what decoding makes of it, and the exchanges of commands that store one and read it back. -/

namespace Sys2Proof.Machine

/-! A field that holds an encoded count -/

/-- The eight octets at an offset are those of the timestamp that encodes a count (43_timestamp.md R96). -/
def HoldsTimestamp (s : State) (a ms : Nat) : Prop := ∀ j, j < 8 → s.octet (a + j) = Spec.tsOctet ms j

section
variable {s : State} {a ms : Nat} (h : HoldsTimestamp s a ms)
include h

theorem HoldsTimestamp.seconds : Memory.octets s.pkt a 4 = beOctets 4 (msToSeconds ms) := by
  apply List.ext_getElem
  · simp
  · intro j hj _
    rw [Memory.octets_length] at hj
    rw [Memory.octets_getElem, beOctets_getElem]
    exact (h j (by omega)).trans (if_pos hj)

theorem HoldsTimestamp.fraction : Memory.octets s.pkt (a + 4) 4 = beOctets 4 (msToFraction ms) := by
  apply List.ext_getElem
  · simp
  · intro j hj _
    rw [Memory.octets_length] at hj
    rw [Memory.octets_getElem, beOctets_getElem, Nat.add_assoc, show 4 - 1 - j = 7 - (4 + j) by omega]
    exact (h (4 + j) (by omega)).trans (if_neg (by omega))

theorem HoldsTimestamp.be32_fraction : Spec.be32 s (a + 4) = msToFraction ms := by
  rw [← beValue_octets_four, h.fraction, beValue_beOctets_of_lt (msToFraction_lt ms)]

theorem HoldsTimestamp.tsToMs (hms : ms < Spec.limit) :
    Spec.tsToMs s a = Machine.tsToMs (msToSeconds ms) (msToFraction ms) := by
  rw [← timestampAt_eq_tsToMs, timestampAt, h.seconds, h.fraction, beValue_beOctets_of_lt (msToSeconds_lt hms),
    beValue_beOctets_of_lt (msToFraction_lt ms)]

end

/-- Only a multiple of 125 thousandths is a whole number of 2^-32 fractions (43_timestamp.md laws (a) and (b)). -/
theorem fraction_exact_iff (r : Nat) : r * 2 ^ 32 / 1000 * 1000 = r * 2 ^ 32 ↔ r % 125 = 0 := by
  constructor <;> intro h <;> omega

/-- Truncating twice keeps the thousandths where the fraction is exact, and loses one where it is not. -/
theorem fraction_round_trip {r : Nat} (hr : r < 1000) :
    r * 2 ^ 32 / 1000 * 1000 / 2 ^ 32 = if r % 125 = 0 then r else r - 1 := by
  split
  case isTrue h => rw [(fraction_exact_iff r).mpr h, Nat.mul_div_cancel _ (by decide)]
  case isFalse h =>
    have hne : r * 2 ^ 32 / 1000 * 1000 ≠ r * 2 ^ 32 := fun heq => h ((fraction_exact_iff r).mp heq)
    omega

theorem tsToMs_msToSeconds_msToFraction (ms : Nat) :
    tsToMs (msToSeconds ms) (msToFraction ms) = if ms % 1000 % 125 = 0 then ms else ms - 1 := by
  rw [tsToMs, msToSeconds, msToFraction, fraction_round_trip (Nat.mod_lt ms (by decide))]
  split <;> omega

/-- The count that a field with an encoded count decodes to, or one more, is the count encoded. -/
theorem HoldsTimestamp.tsToMs_eq_or {s : State} {a ms : Nat} (h : HoldsTimestamp s a ms) (hms : ms < Spec.limit) :
    Spec.tsToMs s a = ms ∨ Spec.tsToMs s a + 1 = ms := by
  rw [h.tsToMs hms, tsToMs_msToSeconds_msToFraction]
  split <;> omega

/-! TSENC, then TSDEC -/

/-- Where TSENC succeeds, the field afterwards holds the count. -/
theorem exec_tsenc_holdsTimestamp {off : Octet} {ms : Millis} (hoff : off.toNat ≤ 40) (hms : ms.toNat < Spec.limit)
    (s : State) : ∃ t, exec (.tsenc off ms) s = .next t ∧ t.resp = some [0x00] ∧
      HoldsTimestamp t off.toNat ms.toNat := by
  refine ⟨_, exec_tsenc_of_lt_limit hoff hms s, State.setResp_resp _ _, fun j hj => ?_⟩
  rw [State.octet_setResp, State.octet_setPkt, Memory.get_timestamp, if_pos (by omega), Nat.add_sub_cancel_left]

/-- Settles O46: TSENC leaves a field that holds the count, and `tsToMs_msToSeconds_msToFraction` says what it decodes
to. -/
theorem encodeThenDecodeTimestamp : Obligations.EncodeThenDecodeTimestamp := by
  intro s off ms hoff hms
  obtain ⟨t, ht, -, hfield⟩ := exec_tsenc_holdsTimestamp hoff hms s
  refine ⟨t, ht, ?_⟩
  rw [exec_tsdec_of_le hoff, hfield.tsToMs hms, tsToMs_msToSeconds_msToFraction]

/-- The milliseconds of a decoded field encode to a fraction that does not exceed the field's (43_timestamp.md law
(c)). -/
theorem msToFraction_tsToMs_le {seconds fraction : Nat} (h : fraction < 256 ^ 4) :
    msToFraction (tsToMs seconds fraction) ≤ fraction := by
  have hlt : fraction * 1000 / 2 ^ 32 < 1000 := by omega
  have hmod : tsToMs seconds fraction % 1000 = fraction * 1000 / 2 ^ 32 := by rw [tsToMs]; omega
  have hle : fraction * 1000 / 2 ^ 32 * 2 ^ 32 ≤ fraction * 1000 := Nat.div_mul_le_self _ _
  rw [msToFraction, hmod]
  omega

/-- Settles O47: a decoded field is below the limit (`tsToMs_le`), so TSENC stores it in place and decoding loses at
most one millisecond. -/
theorem decodeEncodeDecodeTimestamp : Obligations.DecodeEncodeDecodeTimestamp := by
  intro s off hoff
  have hle : Spec.tsToMs s off.toNat ≤ 4294967295999 := tsToMs_le s off.toNat
  have hlt : Spec.tsToMs s off.toNat < Spec.limit := by rw [Spec.limit]; omega
  have hread : (BitVec.ofNat 64 (Spec.tsToMs s off.toNat)).toNat = Spec.tsToMs s off.toNat := by
    rw [BitVec.toNat_ofNat, Nat.mod_eq_of_lt (by omega)]
  obtain ⟨t, ht, hresp, hfield⟩ := exec_tsenc_holdsTimestamp hoff (by rwa [hread]) s
  rw [hread] at hfield
  refine ⟨t, Spec.tsToMs t off.toNat, ht, hresp, ?_, exec_tsdec_of_le hoff t, hfield.tsToMs_eq_or hlt⟩
  rw [hfield.be32_fraction]
  exact msToFraction_tsToMs_le (be32_lt s _)

/-! INIT, then TXREAD -/

theorem Memory.octets_append (m : List Host.Cell) (a n k : Nat) :
    Memory.octets m a (n + k) = Memory.octets m a n ++ Memory.octets m (a + n) k := by
  simp [Memory.octets_eq_map, List.range_add, Nat.add_assoc]

theorem octets_request_zeros (m : List Host.Cell) (ms : Nat) :
    Memory.octets (Memory.request m ms) 1 39 = List.replicate 39 0x00 := by
  rw [Memory.octets_eq_map, List.eq_replicate_iff]
  refine ⟨by simp, fun b hb => ?_⟩
  obtain ⟨j, hj, rfl⟩ := List.mem_map.mp hb
  have hlt : j < 39 := List.mem_range.mp hj
  rw [Memory.get_request, if_neg (by omega), if_pos (by omega)]

theorem octets_request_timestamp (m : List Host.Cell) (ms : Nat) :
    Memory.octets (Memory.request m ms) 40 8 = (List.range 8).map (Spec.tsOctet ms) := by
  rw [Memory.octets_eq_map]
  refine List.map_congr_left fun j hj => ?_
  have hlt : j < 8 := List.mem_range.mp hj
  rw [Memory.get_request, if_neg (by omega), if_neg (by omega), if_pos (by omega), Nat.add_sub_cancel_left]

/-- The buffer after INIT: the header octet, 39 zeros and the timestamp (40_request_init.md, the request image). -/
theorem octets_request (m : List Host.Cell) (ms : Nat) :
    Memory.octets (Memory.request m ms) 0 48 =
      0x1B :: (List.replicate 39 0x00 ++ (List.range 8).map (Spec.tsOctet ms)) := by
  rw [Memory.octets, Memory.octets_append _ (0 + 1) 39 8, Memory.get_request, octets_request_zeros,
    octets_request_timestamp, if_pos rfl]

/-- Settles O44: INIT's buffer read from offset 0 (`octets_request`). -/
theorem requestImage : Obligations.RequestImage := by
  intro s now hnow
  refine ⟨_, exec_init_of_lt_limit hnow s, ?_⟩
  exact exec_of_resultOctets rfl rfl (octets_request s.pkt now.toNat)

theorem Memory.get_of_wfFrom_of_pktLen_le {lo a : Nat} {m : List Host.Cell} (h : Memory.wfFrom lo m = true)
    (ha : Config.pktLen ≤ a) : Memory.get m a = Memory.unlisted := by
  induction m generalizing lo with
  | nil => rfl
  | cons c m ih =>
    obtain ⟨b, w⟩ := c
    simp only [Memory.wfFrom, Bool.and_eq_true, decide_eq_true_eq] at h
    obtain ⟨⟨⟨-, hb⟩, -⟩, htail⟩ := h
    rw [Memory.get, if_neg (by omega)]
    exact ih htail

/-- Canonical buffers give one request, as it names every octet of PKT (40_request_init.md section INIT). -/
theorem request_eq_of_wf {m m' : List Host.Cell} (h : Memory.wf m = true) (h' : Memory.wf m' = true) (ms : Nat) :
    Memory.request m ms = Memory.request m' ms := by
  refine Memory.ext_of_wf (Memory.wf_request ms h) (Memory.wf_request ms h') fun i => ?_
  rw [Memory.get_request, Memory.get_request]
  by_cases hi : i < 48
  · simp only [if_pos hi]
  · have hout : Config.pktLen ≤ i := not_lt.mp hi
    rw [Memory.get_of_wfFrom_of_pktLen_le h hout, Memory.get_of_wfFrom_of_pktLen_le h' hout]

/-- Settles O43: the request does not depend on the buffer before it (`request_eq_of_wf`), and INIT sets every other
field but the port. -/
theorem initForgetsTheState : Obligations.InitForgetsTheState := by
  intro s now hwf hnow
  rw [exec_init_of_lt_limit hnow, exec_init_of_lt_limit hnow, request_eq_of_wf hwf Memory.wf_reset]
  rfl

/-! RXLOAD, then VALID or a decoder -/

theorem exec_rxload_octet (n : Count) {data : List Octet} (hdata : data.length = 48) (s : State) :
    ∃ t, exec (.rxload n data) s = .next t ∧ t.rxlen = n ∧
      ∀ a, a < min n.toNat 48 → t.octet a = data.getD a 0x00 := by
  obtain ⟨hload, -⟩ := rxloadDeliversTheDatagram
  obtain ⟨t, ht, hrxlen, -, -, hoctet⟩ := hload s n data hdata
  exact ⟨t, ht, hrxlen, fun a ha => (hoctet a).trans (if_pos ha)⟩

/-- Settles O45: VALID examines the count and PKT[0], which RXLOAD has stored wherever the count is long enough. -/
theorem validAfterRxload : Obligations.ValidAfterRxload := by
  intro s n data hdata
  obtain ⟨t, ht, rfl, hoctet⟩ := exec_rxload_octet n hdata s
  obtain ⟨hvalid, -⟩ := validTestsLengthAndMode
  refine ⟨t, ht, ?_⟩
  rw [hvalid]
  by_cases hlen : 48 ≤ t.rxlen.toNat
  · rw [hoctet 0 (by omega)]
  · simp only [hlen, false_and]

/-- Settles O48: RXLOAD leaves a field that holds the request's count, which TSDEC gives back or one less. -/
theorem echoedRequestTime : Obligations.EchoedRequestTime := by
  intro s now n data hnow hn hdata hecho
  obtain ⟨u, hu, -, hoctet⟩ := exec_rxload_octet n hdata
    (((s.setPkt (Memory.request s.pkt now.toNat)).setRxlen 0).setResp (some [0x00]))
  have hfield : HoldsTimestamp u 24 now.toNat := fun j hj => (hoctet (24 + j) (by omega)).trans (hecho j hj)
  have horig : (24 : Octet).toNat ≤ 40 := by decide
  exact ⟨_, u, Spec.tsToMs u 24, exec_init_of_lt_limit hnow s, hu, exec_tsdec_of_le horig u, hfield.tsToMs_eq_or hnow⟩

end Sys2Proof.Machine
end

section
/-! SUPPORT. The clock laws and the exchange record (45_clock_model.md section Arithmetic laws; 46_transport_port.md
R125): the responses of DELAY and OFFS as integers of their operands, and the host's record from the decoded timestamps. -/

namespace Sys2Proof.Machine

/-! The clock laws, read off the responses -/

/-- The response of DELAY (45_clock_model.md R111). -/
def delayResponse (t1 t2 t3 t4 : Millis) : List Octet :=
  0x00 :: clockOctets (roundTripDelay (millisInt t1) (millisInt t2) (millisInt t3) (millisInt t4))

/-- The response of OFFS (45_clock_model.md R112). -/
def offsResponse (t1 t2 t3 t4 : Millis) : List Octet :=
  0x00 :: clockOctets (offsetHalves (millisInt t1) (millisInt t2) (millisInt t3) (millisInt t4))

theorem exec_delay (t1 t2 t3 t4 : Millis) (s : State) :
    exec (.delay t1 t2 t3 t4) s = .next { s with resp := some (delayResponse t1 t2 t3 t4) } :=
  exec_of_resultOctets rfl rfl rfl

theorem exec_offs (t1 t2 t3 t4 : Millis) (s : State) :
    exec (.offs t1 t2 t3 t4) s = .next { s with resp := some (offsResponse t1 t2 t3 t4) } :=
  exec_of_resultOctets rfl rfl rfl

theorem resultInt_delayResponse (t1 t2 t3 t4 : Millis) :
    resultInt (delayResponse t1 t2 t3 t4) = ((t4.toNat : Int) - t1.toNat) - ((t3.toNat : Int) - t2.toNat) := by
  obtain ⟨hlo, hhi⟩ := roundTripDelay_bounds t1 t2 t3 t4
  exact resultInt_clockOctets 0x00 (by omega) (by omega)

theorem resultInt_offsResponse (t1 t2 t3 t4 : Millis) :
    resultInt (offsResponse t1 t2 t3 t4) = ((t2.toNat : Int) - t1.toNat) + ((t3.toNat : Int) - t4.toNat) := by
  obtain ⟨hlo, hhi⟩ := offsetHalves_bounds t1 t2 t3 t4
  exact resultInt_clockOctets 0x00 (by omega) (by omega)

section
variable {t1 t2 t3 t4 u1 u2 u3 u4 : Millis} {k : Int} (h1 : (u1.toNat : Int) = t1.toNat + k)
  (h2 : (u2.toNat : Int) = t2.toNat + k) (h3 : (u3.toNat : Int) = t3.toNat + k) (h4 : (u4.toNat : Int) = t4.toNat + k)
include h2 h3

/-- Shifting the server's two readings together does not change the delay (45_clock_model.md law (c)). -/
theorem delayResponse_server_shift : delayResponse t1 u2 u3 t4 = delayResponse t1 t2 t3 t4 := by
  have heq : roundTripDelay (millisInt t1) (millisInt u2) (millisInt u3) (millisInt t4) =
      roundTripDelay (millisInt t1) (millisInt t2) (millisInt t3) (millisInt t4) := by
    simp only [roundTripDelay, millisInt]
    omega
  rw [delayResponse, heq, delayResponse]

/-- Shifting the server's two readings together moves the offset numerator by twice the shift (law (c)). -/
theorem resultInt_offsResponse_server_shift :
    resultInt (offsResponse t1 u2 u3 t4) = resultInt (offsResponse t1 t2 t3 t4) + 2 * k := by
  rw [resultInt_offsResponse, resultInt_offsResponse]
  omega

include h1 h4

/-- Shifting all four readings together changes no difference between them (law (c)). -/
theorem delayResponse_common_shift : delayResponse u1 u2 u3 u4 = delayResponse t1 t2 t3 t4 := by
  have heq : roundTripDelay (millisInt u1) (millisInt u2) (millisInt u3) (millisInt u4) =
      roundTripDelay (millisInt t1) (millisInt t2) (millisInt t3) (millisInt t4) := by
    simp only [roundTripDelay, millisInt]
    omega
  rw [delayResponse, heq, delayResponse]

theorem offsResponse_common_shift : offsResponse u1 u2 u3 u4 = offsResponse t1 t2 t3 t4 := by
  have heq : offsetHalves (millisInt u1) (millisInt u2) (millisInt u3) (millisInt u4) =
      offsetHalves (millisInt t1) (millisInt t2) (millisInt t3) (millisInt t4) := by
    simp only [offsetHalves, millisInt]
    omega
  rw [offsResponse, heq, offsResponse]

end

/-- Settles O49: the two results as integers of the operands, where each law is linear. -/
theorem clockLaws : Obligations.ClockLaws := by
  intro s t1 t2 t3 t4
  refine ⟨delayResponse t1 t2 t3 t4, offsResponse t1 t2 t3 t4, offsResponse t2 t1 t4 t3, exec_delay t1 t2 t3 t4 s,
    exec_offs t1 t2 t3 t4 s, exec_offs t2 t1 t4 t3 s, ?_, ?_, ?_, fun u1 u2 u3 u4 k h1 h2 h3 h4 => ?_,
    fun u2 u3 k h2 h3 => ?_⟩
  · rw [resultInt_delayResponse, resultInt_offsResponse]; ring
  · rw [resultInt_delayResponse, resultInt_offsResponse]; ring
  · rw [resultInt_offsResponse, resultInt_offsResponse]; ring
  · rw [exec_delay, exec_offs, delayResponse_common_shift h1 h2 h3 h4, offsResponse_common_shift h1 h2 h3 h4]
    exact ⟨rfl, rfl⟩
  · rw [exec_delay, exec_offs, delayResponse_server_shift h2 h3]
    exact ⟨_, rfl, rfl, resultInt_offsResponse_server_shift h2 h3⟩

/-! The exchange record -/

/-- Where an operand can hold the adjusted timestamp, the host has it exactly (46_transport_port.md R125; log 12). -/
theorem exists_adjusted {utcOff : Int} {ms : Nat} (hlo : 0 ≤ (ms : Int) + utcOff) (hhi : (ms : Int) + utcOff < 2 ^ 64) :
    ∃ t : Millis, adjusted utcOff ms = some t ∧ (t.toNat : Int) = ms + utcOff := by
  refine ⟨BitVec.ofInt 64 (ms + utcOff), if_pos ⟨hlo, hhi⟩, ?_⟩
  rw [BitVec.toNat_ofInt]
  omega

theorem exchangeRecord_of_adjusted {utcOff : Int} {orig recv xmit : Nat} {t2 t3 : Millis}
    (hrecv : adjusted utcOff recv = some t2) (hxmit : adjusted utcOff xmit = some t3) (t4 : Millis) :
    exchangeRecord utcOff orig recv xmit t4 = some ⟨BitVec.ofNat 64 orig, t2, t3, t4⟩ := by
  rw [exchangeRecord, hrecv, hxmit]

/-- Settles O50: TSDEC at the three offsets, and the record of the two adjusted timestamps (`exists_adjusted`). -/
theorem exchangeRecordFromReply : Obligations.ExchangeRecordFromReply := by
  intro s utcOff t4
  refine ⟨exec_tsdec_of_le (off := 24) (by decide) s, exec_tsdec_of_le (off := 32) (by decide) s,
    exec_tsdec_of_le (off := 40) (by decide) s, fun hlo2 hhi2 hlo3 hhi3 => ?_⟩
  obtain ⟨t2, hrecv, ht2⟩ := exists_adjusted hlo2 hhi2
  obtain ⟨t3, hxmit, ht3⟩ := exists_adjusted hlo3 hhi3
  refine ⟨_, exchangeRecord_of_adjusted hrecv hxmit t4, ?_, ht2, ht3, rfl⟩
  have hle : Spec.tsToMs s 24 ≤ 4294967295999 := tsToMs_le s 24
  rw [BitVec.toNat_ofNat, Nat.mod_eq_of_lt (by omega)]

end Sys2Proof.Machine
end

section
/-! SUPPORT. Years counted from 1 March, so that a leap day ends its year (43_timestamp.md R93; general knowledge by log
11): their leap years, and that the model's year of the era is the one whose days hold the day. -/

namespace Sys2Proof.Machine

/-! Leap years -/

theorem isLeap_toNat (y : Nat) :
    (Spec.isLeap y).toNat = if y % 4 = 0 ∧ y % 100 ≠ 0 ∨ y % 400 = 0 then 1 else 0 := by
  simp only [Spec.isLeap, Bool.toNat, Bool.cond_eq_ite, Bool.or_eq_true, Bool.and_eq_true, beq_iff_eq, bne_iff_ne]

/-- A year adds its own leap day to the count. -/
theorem leapYearsTo_succ (y : Nat) : Spec.leapYearsTo (y + 1) = Spec.leapYearsTo y + (Spec.isLeap (y + 1)).toNat := by
  have hcenturies : y / 100 ≤ y / 4 := Nat.div_le_div_left (by decide) (by decide)
  simp only [isLeap_toNat, Spec.leapYearsTo, Nat.succ_div, Nat.dvd_iff_mod_eq_zero]
  split_ifs <;> omega

/-- An era of 400 years has 97 leap years. -/
theorem leapYearsTo_add_eras (y era : Nat) : Spec.leapYearsTo (y + era * 400) = Spec.leapYearsTo y + era * 97 := by
  simp only [Spec.leapYearsTo]
  omega

/-! Years from 1 March -/

/-- The days from 1 March of year 0 to 1 March of a year: the leap day of the year itself is behind. -/
def daysToMarch (y : Nat) : Nat := 365 * y + Spec.leapYearsTo y

theorem daysToMarch_succ (y : Nat) : daysToMarch (y + 1) = daysToMarch y + 365 + (Spec.isLeap (y + 1)).toNat := by
  rw [daysToMarch, daysToMarch, leapYearsTo_succ]
  ring

theorem daysToMarch_add_eras (y era : Nat) : daysToMarch (y + era * 400) = daysToMarch y + era * 146097 := by
  rw [daysToMarch, daysToMarch, leapYearsTo_add_eras]
  ring

theorem exists_year_of_lt_daysToMarch {n day : Nat} (h : day < daysToMarch n) :
    ∃ y, y < n ∧ daysToMarch y ≤ day ∧ day < daysToMarch (y + 1) := by
  induction n with
  | zero => exact absurd h (Nat.not_lt_zero day)
  | succ n ih =>
    by_cases hn : day < daysToMarch n
    · obtain ⟨y, hy, hday⟩ := ih hn
      exact ⟨y, hy.trans (Nat.lt_succ_self n), hday⟩
    · exact ⟨n, Nat.lt_succ_self n, not_lt.mp hn, h⟩

/-! The year of the era. A day is written as `c` centuries, `q` groups of four years and `n` days, which are `k` years
and `r` days; only the last year of a group may have the day 365, and of the last group only in the last century. -/

/-- The last day of an era falls behind its fourth century, as the era's last year is a leap year. -/
theorem div_century_eq {c q n : Nat} (hc : c < 4) (hq : q < 25) (hn : n ≤ 1460) (hlast : n = 1460 → q = 24 → c = 3) :
    (36524 * c + (1461 * q + n)) / 36524 = c + (36524 * c + (1461 * q + n)) / 146096 := by
  obtain hlt | ⟨rfl, rfl, rfl⟩ : 1461 * q + n < 36524 ∨ (n = 1460 ∧ q = 24 ∧ c = 3) := by omega
  · rw [Nat.mul_add_div (by decide), Nat.div_eq_of_lt hlt, Nat.div_eq_of_lt (show _ < 146096 by omega)]
  · rfl

/-- The quotient by 1460 exceeds the number of groups passed by at most one, and only late in a group's last year. -/
theorem div_fourYears_eq {c q n : Nat} (hc : c < 4) (hq : q < 25) (hn : n ≤ 1460) :
    (36524 * c + (1461 * q + n)) / 1460 = 25 * c + q + if 24 * c + q + n < 1460 then 0 else 1 := by
  rw [show 36524 * c + (1461 * q + n) = 1460 * (25 * c + q) + (24 * c + q + n) by ring, Nat.mul_add_div (by decide)]
  split <;> omega

theorem yearOfEra_of_parts {c q k r : Nat} (hc : c < 4) (hq : q < 25) (hk : k < 4) (hr : r ≤ 365)
    (hlast : r = 365 → k = 3) (hleap : r = 365 → q = 24 → c = 3) :
    yearOfEra (36524 * c + (1461 * q + (365 * k + r))) = 100 * c + 4 * q + k := by
  have hn : 365 * k + r ≤ 1460 := by omega
  rw [yearOfEra, div_century_eq hc hq hn (by omega), div_fourYears_eq hc hq hn]
  generalize (36524 * c + (1461 * q + (365 * k + r))) / 146096 = eraEnd
  split <;> omega

/-- The model's year of a day of the era is the year whose days hold it (43_timestamp.md R93). -/
theorem yearOfEra_eq {y doe : Nat} (hy : y < 400) (hlo : daysToMarch y ≤ doe) (hhi : doe < daysToMarch (y + 1)) :
    yearOfEra doe = y := by
  obtain ⟨c, q, k, hc, hq, hk, rfl⟩ : ∃ c q k, c < 4 ∧ q < 25 ∧ k < 4 ∧ y = 100 * c + 4 * q + k :=
    ⟨y / 100, y % 100 / 4, y % 4, by omega, by omega, by omega, by omega⟩
  have hdays : daysToMarch (100 * c + 4 * q + k) = 36524 * c + (1461 * q + 365 * k) := by
    rw [daysToMarch, Spec.leapYearsTo]
    omega
  obtain ⟨r, rfl⟩ := Nat.exists_eq_add_of_le hlo
  rw [daysToMarch_succ, isLeap_toNat] at hhi
  have hr : r ≤ 365 := by split at hhi <;> omega
  have hlast : r = 365 → k = 3 ∧ (q = 24 → c = 3) := by split at hhi <;> omega
  rw [hdays, Nat.add_assoc, Nat.add_assoc]
  exact yearOfEra_of_parts hc hq hk hr (fun h => (hlast h).1) (fun h => (hlast h).2)

end Sys2Proof.Machine
end

section
/-! SUPPORT. The calendar of MS2CAL (43_timestamp.md R92 to R94; log 11): the model's date as a day of a year counted
from 1 March, that date in the statements' count of days and in `ms_from_civil`, and the answer of MS2CAL. -/

namespace Sys2Proof.Machine

/-! The year and the day of the year that the model finds -/

theorem isLeap_add_eras (y era : Nat) : (Spec.isLeap (y + era * 400)).toNat = (Spec.isLeap y).toNat := by
  have h4 : (y + era * 400) % 4 = y % 4 := by omega
  have h100 : (y + era * 400) % 100 = y % 100 := by omega
  rw [isLeap_toNat, isLeap_toNat, h4, h100, Nat.add_mul_mod_self_right]

theorem daysToMarch_mono : Monotone daysToMarch :=
  monotone_nat_of_le_succ fun y => by rw [daysToMarch_succ]; omega

theorem dayOfYear_eq {y doe : Nat} (hy : y < 400) (hyear : yearOfEra doe = y) :
    dayOfYear doe = doe - daysToMarch y := by
  rw [dayOfYear, hyear, daysToMarch, Spec.leapYearsTo]
  omega

/-- A day from 1 March of year 0 is a year counted from March and a day inside that year. -/
theorem exists_year_dayOfYear (z : Nat) :
    ∃ y, y = yearOfEra (z % 146097) + z / 146097 * 400 ∧ z = daysToMarch y + dayOfYear (z % 146097) ∧
      dayOfYear (z % 146097) < 365 + (Spec.isLeap (y + 1)).toNat := by
  have hera : z % 146097 < daysToMarch 400 := Nat.mod_lt z (by decide)
  obtain ⟨y, hy, hlo, hhi⟩ := exists_year_of_lt_daysToMarch hera
  have hyear : yearOfEra (z % 146097) = y := yearOfEra_eq hy hlo hhi
  have hday : dayOfYear (z % 146097) = z % 146097 - daysToMarch y := dayOfYear_eq hy hyear
  rw [daysToMarch_succ] at hhi
  refine ⟨_, rfl, ?_, ?_⟩
  · rw [hyear, hday, daysToMarch_add_eras]
    omega
  · rw [hyear, hday, Nat.add_right_comm, isLeap_add_eras]
    omega

/-! Months counted from March, with 0 for March and 11 for February -/

/-- The days of a year from 1 March before a month of it. -/
def daysBeforeMarchMonth (mp : Nat) : Nat := (153 * mp + 2) / 5

/-- The calendar month. -/
def monthOfMarch (mp : Nat) : Nat := if mp < 10 then mp + 3 else mp - 9

/-- The calendar year, which has begun for January and February. -/
def yearOfMarch (y mp : Nat) : Nat := y + if monthOfMarch mp ≤ 2 then 1 else 0

theorem monthOfMarch_bounds {mp : Nat} (h : mp < 12) : 1 ≤ monthOfMarch mp ∧ monthOfMarch mp ≤ 12 := by
  rw [monthOfMarch]
  split <;> omega

theorem yearOfMarch_of_lt {y mp : Nat} (h : mp < 10) : yearOfMarch y mp = y := by
  rw [yearOfMarch, monthOfMarch, if_pos h, if_neg (by omega)]
  rfl

theorem yearOfMarch_of_ge {y mp : Nat} (h : 10 ≤ mp) (hmp : mp < 12) : yearOfMarch y mp = y + 1 := by
  rw [yearOfMarch, monthOfMarch, if_neg h.not_gt, if_pos (by omega)]

/-- February takes what its year has left, and every other month has the days up to the next. -/
theorem daysInMonth_march (y : Nat) {mp : Nat} (h : mp < 12) :
    Spec.daysInMonth (yearOfMarch y mp) (monthOfMarch mp) =
      if mp = 11 then 28 + (Spec.isLeap (y + 1)).toNat
      else daysBeforeMarchMonth (mp + 1) - daysBeforeMarchMonth mp := by
  obtain rfl | hlt : mp = 11 ∨ mp < 11 := by omega
  · change (if Spec.isLeap (y + 1) then 29 else 28) = 28 + (Spec.isLeap (y + 1)).toNat
    cases Spec.isLeap (y + 1) <;> rfl
  · interval_cases mp <;> rfl

theorem daysBeforeMonth_add_three (y : Nat) {mp : Nat} (h : mp < 10) :
    Spec.daysBeforeMonth y (mp + 3) = 59 + (Spec.isLeap y).toNat + daysBeforeMarchMonth mp := by
  simp only [Spec.daysBeforeMonth, Spec.daysInMonth]
  cases Spec.isLeap y <;> interval_cases mp <;> rfl

/-- Up to 1899 there are 460 leap years. -/
theorem le_leapYearsTo {n : Nat} (h : 1899 ≤ n) : 460 ≤ Spec.leapYearsTo n := by
  rw [Spec.leapYearsTo]
  omega

/-- The statements' count of days is the count from 1 March of year 0, from which 1900-01-01 is day 693901. -/
theorem daysSince1900_march {y mp d : Nat} (hmp : mp < 12) (hyear : 1900 ≤ yearOfMarch y mp) :
    Spec.daysSince1900 (yearOfMarch y mp) (monthOfMarch mp) d + 693901 =
      daysToMarch y + daysBeforeMarchMonth mp + (d - 1) := by
  have hbase : Spec.leapYearsTo 1899 = 460 := rfl
  obtain hlt | hge := Nat.lt_or_ge mp 10
  · rw [yearOfMarch_of_lt hlt] at hyear ⊢
    obtain ⟨n, rfl⟩ : ∃ n, y = n + 1 := Nat.exists_eq_add_of_le' (by omega)
    have hleap : 460 ≤ Spec.leapYearsTo n := le_leapYearsTo (by omega)
    rw [monthOfMarch, if_pos hlt, Spec.daysSince1900, daysBeforeMonth_add_three _ hlt, hbase, daysToMarch,
      leapYearsTo_succ, Nat.add_sub_cancel]
    omega
  · rw [yearOfMarch_of_ge hge hmp] at hyear ⊢
    have hleap : 460 ≤ Spec.leapYearsTo y := le_leapYearsTo (by omega)
    rw [Spec.daysSince1900, hbase, daysToMarch, Nat.add_sub_cancel]
    interval_cases mp
    · change _ + 0 + _ + _ = _ + 306 + _
      omega
    · change _ + 31 + _ + _ = _ + 337 + _
      omega

/-! The date of an instant -/

/-- A calendar time whose date is day `doy` of the year `y` counted from March, in its month `mp`. -/
structure MarchDate (c : Civil) (y mp doy : Nat) : Prop where
  month_lt : mp < 12
  first_le : daysBeforeMarchMonth mp ≤ doy
  lt_next : doy < daysBeforeMarchMonth (mp + 1)
  lt_year : doy < 365 + (Spec.isLeap (y + 1)).toNat
  year_eq : c.year = yearOfMarch y mp
  month_eq : c.month = monthOfMarch mp
  day_eq : c.day = doy - daysBeforeMarchMonth mp + 1

/-- The linear formula finds the month that holds the day (43_timestamp.md R93). -/
theorem daysBeforeMarchMonth_bounds {doy : Nat} (h : doy < 366) :
    (5 * doy + 2) / 153 < 12 ∧ daysBeforeMarchMonth ((5 * doy + 2) / 153) ≤ doy ∧
      doy < daysBeforeMarchMonth ((5 * doy + 2) / 153 + 1) := by
  simp only [daysBeforeMarchMonth]
  omega

theorem civilFromMs_marchDate (ms : Nat) :
    ∃ y mp doy, MarchDate (civilFromMs ms) y mp doy ∧ ms / 86400000 + 693901 = daysToMarch y + doy := by
  obtain ⟨y, hy, hz, hdoy⟩ := exists_year_dayOfYear (ms / 86400000 + 693901)
  have hlt : dayOfYear ((ms / 86400000 + 693901) % 146097) < 366 := by
    have hleap : (Spec.isLeap (y + 1)).toNat ≤ 1 := Bool.toNat_le _
    omega
  obtain ⟨hmp, hfirst, hnext⟩ := daysBeforeMarchMonth_bounds hlt
  exact ⟨y, _, _, ⟨hmp, hfirst, hnext, hdoy, by rw [hy]; rfl, rfl, rfl⟩, hz⟩

section
variable {c : Civil} {y mp doy : Nat} (h : MarchDate c y mp doy)
include h

/-- The day exists in its month. -/
theorem MarchDate.day_le : c.day ≤ Spec.daysInMonth c.year c.month := by
  have hfirst := h.first_le
  have hnext := h.lt_next
  have hyear := h.lt_year
  rw [h.year_eq, h.month_eq, h.day_eq, daysInMonth_march y h.month_lt]
  split
  case isTrue hmp =>
    have hfebruary : daysBeforeMarchMonth mp = 337 := by rw [hmp]; rfl
    omega
  case isFalse => omega

/-- Day 693901 is 1900-01-01, in the tenth month of the year 1899 counted from March. -/
theorem MarchDate.le_year (hday : 693901 ≤ daysToMarch y + doy) : 1900 ≤ c.year := by
  have hyear := h.lt_year
  have hnext := h.lt_next
  have h1899 : daysToMarch 1899 = 693595 := rfl
  rw [h.year_eq]
  obtain hlt | rfl | hgt := Nat.lt_trichotomy y 1899
  · have hmono : daysToMarch (y + 1) ≤ daysToMarch 1899 := daysToMarch_mono hlt
    rw [daysToMarch_succ] at hmono
    omega
  · have hmp : 10 ≤ mp := by rw [daysBeforeMarchMonth] at hnext; omega
    rw [yearOfMarch_of_ge hmp h.month_lt]
  · exact le_add_right (Nat.succ_le_of_lt hgt)

theorem MarchDate.daysSince1900_add (hyear : 1900 ≤ c.year) :
    Spec.daysSince1900 c.year c.month c.day + 693901 = daysToMarch y + doy := by
  have hfirst := h.first_le
  rw [h.year_eq] at hyear
  rw [h.year_eq, h.month_eq, daysSince1900_march h.month_lt hyear, h.day_eq]
  omega

/-- `ms_from_civil` finds year and month counted from March again (43_timestamp.md R94). -/
theorem MarchDate.msFromCivil_eq :
    msFromCivil c = (daysToMarch y + doy - 693901) * 86400000 + c.hour * 3600000 + c.minute * 60000 + c.second * 1000
      + c.msec := by
  have hfirst := h.first_le
  have hmonth_lt := h.month_lt
  have hyear : (if c.month ≤ 2 then c.year - 1 else c.year) = y := by
    rw [h.year_eq, h.month_eq, yearOfMarch]
    split <;> simp
  have hmonth : (if 2 < c.month then c.month - 3 else c.month + 9) = mp := by
    rw [h.month_eq, monthOfMarch]
    split <;> split <;> omega
  have hdays : y / 400 * 146097 +
      ((y - y / 400 * 400) * 365 + (y - y / 400 * 400) / 4 - (y - y / 400 * 400) / 100 + doy) =
        daysToMarch y + doy := by
    rw [daysToMarch, Spec.leapYearsTo]
    omega
  have hday : daysBeforeMarchMonth mp + c.day - 1 = doy := by rw [h.day_eq]; omega
  rw [daysBeforeMarchMonth] at hday
  simp only [msFromCivil, hyear, hmonth, hday, hdays]

end

/-! The time of day and the width of the year -/

theorem civilFromMs_time (ms : Nat) :
    (civilFromMs ms).hour < 24 ∧ (civilFromMs ms).minute < 60 ∧ (civilFromMs ms).second < 60 ∧
    (civilFromMs ms).msec < 1000 ∧
    ms = ms / 86400000 * 86400000 + (civilFromMs ms).hour * 3600000 + (civilFromMs ms).minute * 60000
      + (civilFromMs ms).second * 1000 + (civilFromMs ms).msec := by
  simp only [civilFromMs]
  omega

theorem daysInMonth_le (y m : Nat) : Spec.daysInMonth y m ≤ 31 := by
  simp only [Spec.daysInMonth]
  split_ifs <;> decide

/-- Settles O27: the date is one counted from March (`civilFromMs_marchDate`), which `daysSince1900` counts the same. -/
theorem civilFieldsCountGregorianDays : Obligations.CivilFieldsCountGregorianDays := by
  intro ms
  obtain ⟨y, mp, doy, hdate, hday⟩ := civilFromMs_marchDate ms
  obtain ⟨hhour, hminute, hsecond, hmsec, htime⟩ := civilFromMs_time ms
  have hyear : 1900 ≤ (civilFromMs ms).year := hdate.le_year (by omega)
  have hdays := hdate.daysSince1900_add hyear
  obtain ⟨hmonth, hmonth'⟩ : 1 ≤ (civilFromMs ms).month ∧ (civilFromMs ms).month ≤ 12 :=
    hdate.month_eq ▸ monthOfMarch_bounds hdate.month_lt
  refine ⟨civilFromMs ms, rfl, hyear, hmonth, hmonth', ?_, hdate.day_le, hhour, hminute, hsecond, hmsec, ?_⟩
  · rw [hdate.day_eq]
    exact Nat.le_add_left 1 _
  · rwa [show Spec.daysSince1900 _ _ _ = ms / 86400000 by omega]

theorem exec_ms2cal (ms : Millis) (s : State) :
    exec (.ms2cal ms) s =
      .next { s with resp := some (0x00 :: (beOctets 8 ms.toNat ++ civilOctets (civilFromMs ms.toNat))) } :=
  exec_of_resultOctets rfl rfl rfl

theorem civilOctets_eq (c : Civil) :
    civilOctets c = beOctets 4 c.year ++ [BitVec.ofNat 8 c.month, BitVec.ofNat 8 c.day, BitVec.ofNat 8 c.hour,
      BitVec.ofNat 8 c.minute, BitVec.ofNat 8 c.second] ++ beOctets 2 c.msec := by
  simp [civilOctets]

/-- A year takes at least 365 days, so the year of any operand fits its 32 bits. -/
theorem year_lt_of_daysSince1900 {y m d : Nat} (h : Spec.daysSince1900 y m d ≤ 2 ^ 64 / 86400000) : y < 2 ^ 32 := by
  rw [Spec.daysSince1900] at h
  omega

theorem msFromCivil_civilFromMs (ms : Nat) : msFromCivil (civilFromMs ms) = ms := by
  obtain ⟨y, mp, doy, hdate, hday⟩ := civilFromMs_marchDate ms
  obtain ⟨-, -, -, -, htime⟩ := civilFromMs_time ms
  rw [hdate.msFromCivil_eq, ← hday, Nat.add_sub_cancel]
  exact htime.symm

/-- Settles O26: the fields are those of `civilFieldsCountGregorianDays`, and `msFromCivil_civilFromMs` gives the
instant back. -/
theorem msToCalAnswersInstantAndCalendar : Obligations.MsToCalAnswersInstantAndCalendar := by
  refine ⟨fun s ms => ?_, encodes_ms2cal, onlyLength_of_ofOctet (k := .ms2cal) rfl⟩
  obtain ⟨c, rfl, hyear, hmonth, hmonth', hday, hday', hhour, hminute, hsecond, hmsec, hms⟩ :=
    civilFieldsCountGregorianDays ms.toNat
  have hms64 : ms.toNat < 2 ^ 64 := ms.isLt
  have hyear' : (civilFromMs ms.toNat).year < 2 ^ 32 :=
    year_lt_of_daysSince1900 (m := (civilFromMs ms.toNat).month) (d := (civilFromMs ms.toNat).day) (by omega)
  refine ⟨civilFromMs ms.toNat, ?_, hyear, hyear', hmonth, hmonth', hday, hday'.trans (daysInMonth_le _ _), hhour,
    hminute, hsecond, hmsec, msFromCivil_civilFromMs ms.toNat⟩
  rw [exec_ms2cal, civilOctets_eq, List.append_assoc, List.append_assoc, List.append_assoc]

end Sys2Proof.Machine
end
